-- ==== Sys2Proof/Word.lean ====
section
/-! DEFINITION. The word types of LCDENC: every datum is a byte, a bit or a small natural number
(30_encoding.md R104), and a device address has seven bits (10_state.md R21). -/

namespace Sys2Proof

/-- A byte: registers, operands, payload bytes, wire bytes (R11, R104). -/
abbrev Byte := BitVec 8

/-- A device address on the serial bus (R21, R51). -/
abbrev DevAddr := BitVec 7

end Sys2Proof
end

