-- ==== Sys2Proof/Config.lean ====
section
/-! DEFINITION. The configuration of 00_scope.md R10: the type parameter `ERR`, the configuration record with the
values of its table, and the free values: the byte sink's answers (R7, D1) and the expander's lines where
they are unknown (20_memory.md R54). -/

namespace Sys2Proof

/-! ### The parameter ERR -/

/-- MODEL PARAMETER `ERR` (R10, D17) [log 4]: which codes are error values of the byte sink beside code 0.
Nothing constrains it, so nothing proved of the model depends on what an error value is. -/
opaque Config.errCode : Nat → Bool

/-- The type `ERR` of the byte sink's error values (R10, R200, D17): the codes the parameter `Config.errCode`
admits. It is a type, so it stands beside the record of plain data and not in it [log 4]. -/
structure Err where
  code : Nat
  isErr : code = 0 ∨ Config.errCode code = true
  deriving DecidableEq, Repr

/-- What comes back from a port at the end of an event: from the byte sink `ok` or `err e` (R51,
R217); the delay source's `done` is `ok`. -/
inductive Answer where
  | ok
  | err (e : Err)
  deriving DecidableEq, Repr, Inhabited

/-! ### The configuration record -/

/-- `CREATE_CHAR_ERRORS` (R10, R163, D15). -/
inductive ErrorPolicy where
  | propagate
  | swallow
  deriving DecidableEq, Repr

/-- `ARITH_OVERFLOW` (R10, R104, D6). -/
inductive OverflowPolicy where
  | wrap
  | refuse
  deriving DecidableEq, Repr

/-- The configuration parameters of R10 (with the variants of R86 and R87 that its table leaves out, and the shift
of a CGRAM slot, which D12 and 93_implementation_defined.md G4 make a configuration constant).
They are fixed for a model instance; the delay amounts travel in eight bits (D16). [log 5] -/
structure Config where
  blBit : Byte
  enBit : Byte
  rwBit : Byte
  rsBit : Byte
  opClear : Byte
  opHome : Byte
  opEntry : Byte
  opDispctl : Byte
  opFuncset : Byte
  opCgram : Byte
  opDdram : Byte
  cgramShift : Nat
  fDisplayOn : Byte
  fCursorOn : Byte
  fBlinkOn : Byte
  fEntryLeft : Byte
  fEntryRight : Byte
  fShiftOn : Byte
  fShiftOff : Byte
  f8Bit : Byte
  f4Bit : Byte
  f2Line : Byte
  f1Line : Byte
  f5x8 : Byte
  f5x10 : Byte
  tPowerupMs : Byte
  tBlMs : Byte
  tFsMs : Byte
  tClearMs : Byte
  tEnUs : Byte
  createCharErrors : ErrorPolicy
  arithOverflow : OverflowPolicy
  deriving DecidableEq, Repr

namespace Config

/-- The values R10's table gives: the document's wire bits, opcodes and delays; the D10 flag constants,
which the spec marks as general knowledge; and the two default policies. -/
def spec : Config where
  blBit := 0x08
  enBit := 0x04
  rwBit := 0x02
  rsBit := 0x01
  opClear := 0x01
  opHome := 0x02
  opEntry := 0x04
  opDispctl := 0x08
  opFuncset := 0x20
  opCgram := 0x40
  opDdram := 0x80
  cgramShift := 3
  fDisplayOn := 0x04
  fCursorOn := 0x02
  fBlinkOn := 0x01
  fEntryLeft := 0x02
  fEntryRight := 0x00
  fShiftOn := 0x01
  fShiftOff := 0x00
  f8Bit := 0x10
  f4Bit := 0x00
  f2Line := 0x08
  f1Line := 0x00
  f5x8 := 0x00
  f5x10 := 0x04
  tPowerupMs := 50
  tBlMs := 1
  tFsMs := 5
  tClearMs := 2
  tEnUs := 1
  createCharErrors := .propagate
  arithOverflow := .wrap

/-- Every constant has the value of R10's table; either policy may stand. -/
abbrev SpecConstants (c : Config) : Prop :=
  c = { spec with createCharErrors := c.createCharErrors, arithOverflow := c.arithOverflow }

/-- FREE VALUE [log 3]: the byte sink's answer to the `k`-th bus write of the run, where no script
fixes it. Nothing constrains it (R7: "a free input (a draw) at every bus write"). -/
opaque sinkAnswer : Nat → Answer

/-- FREE VALUE [log 18]: the output lines of the expander at a device address where nothing tells them: index 0
before the first write to it, index `k + 1` after the failed write that is entry `k` of the trace. Nothing
constrains it (R54 "a model must not assume either way", U1, U4). -/
opaque expanderLines : DevAddr → Nat → Byte

end Config

end Sys2Proof
end

