-- ==== Sys2Proof/Syntax.lean ====
section
/-! DEFINITION. The requests of LCDENC as syntax: the closed flag enumerations of the Flag/Option Model
(00_scope.md R2, 10_state.md R25, 30_encoding.md R100), the one inductive `Instr` with a constructor
per row of opcode_table.json, and the raw words of the request ports. -/

namespace Sys2Proof

/-- A two-variant flag value: Off = 0, On = 1 (R25, R96). -/
inductive Flag where
  | off
  | on
  deriving DecidableEq, Repr

/-- The entry direction: Left = 1 (left to right), Right = 0 (R20, R25, R86). -/
inductive Direction where
  | right
  | left
  deriving DecidableEq, Repr

/-- The interface width of the function-set command (R87). -/
inductive Width where
  | four
  | eight
  deriving DecidableEq, Repr

/-- The line count of the function-set command (R87). -/
inductive LineCount where
  | one
  | two
  deriving DecidableEq, Repr

/-- The dot format of the function-set command (R87). -/
inductive Font where
  | dots5x8
  | dots5x10
  deriving DecidableEq, Repr

/-- The role tag of `SEND`; a two-bit field with two legal values (R82, R98). -/
inductive Role where
  | command
  | registerSelect
  deriving DecidableEq, Repr

/-- One constructor per row of opcode_table.json. -/
inductive Instr where
  /-- `CONSTRUCT(addr, cols, rows)` (R140). -/
  | construct (addr : DevAddr) (cols rows : Byte)
  /-- `CLEAR()` (R160). -/
  | clear
  /-- `HOME()` (R161). -/
  | home
  /-- `SET_CURSOR_POSITION(col, row)` (R162). -/
  | setCursorPosition (col row : Byte)
  /-- `CREATE_CHAR(location, bitmap)`, the bitmap `bitmap[0]` first (R163). -/
  | createChar (location : Byte) (bitmap : List Byte)
  /-- `SET_DISPLAY(flag)` (R190). -/
  | setDisplay (flag : Flag)
  /-- `SET_CURSOR(flag)` (R191). -/
  | setCursor (flag : Flag)
  /-- `SET_BLINK(flag)` (R192). -/
  | setBlink (flag : Flag)
  /-- `SET_BACKLIGHT(flag)` (R193). -/
  | setBacklight (flag : Flag)
  /-- `PRINT(text)`, a byte sequence in text order (R165, D14). -/
  | print (text : List Byte)
  /-- `WRITE(byte)` (R164). -/
  | write (byte : Byte)
  /-- `EXPANDER_WRITE(data)` of the internal port (R120). -/
  | expanderWrite (data : Byte)
  /-- `PULSE_ENABLE(data)` of the internal port (R121). -/
  | pulseEnable (data : Byte)
  /-- `WRITE4BITS(value)` of the internal port (R122). -/
  | write4bits (value : Byte)
  /-- `SEND(data, role)` of the internal port (R123). -/
  | send (data : Byte) (role : Role)
  /-- The pseudo-operation `COMMAND(b)` (R124); its word is `SEND`'s [log 12]. -/
  | command (data : Byte)
  /-- The emitted command `cmd.clear` (R84) [log 11]. -/
  | cmdClear
  /-- The emitted command `cmd.home` (R84). -/
  | cmdHome
  /-- The emitted command `cmd.entry_mode`, bits `i` and `s` (R84, R86). -/
  | cmdEntryMode (direction : Direction) (shift : Flag)
  /-- The emitted command `cmd.display_control`, bits `d`, `c`, `b` (R84, R85). -/
  | cmdDisplayControl (display cursor blink : Flag)
  /-- The emitted command `cmd.function_set`, bits `w`, `n`, `f` (R84, R87). -/
  | cmdFunctionSet (width : Width) (lines : LineCount) (font : Font)
  /-- The emitted command `cmd.set_cgram` with its 6-bit address (R84, R91). -/
  | cmdSetCgram (address : BitVec 6)
  /-- The emitted command `cmd.set_ddram` with its 7-bit address (R84, R90). -/
  | cmdSetDdram (address : BitVec 7)
  deriving DecidableEq, Repr

/-- A raw request word at one of the request ports, before decoding: a host request word (R94), a transport request word
of the internal port (R98), or the byte of an emitted controller command, which the sequencer hands to
the transport encoder [log 11]. -/
inductive PortWord where
  | host (w : BitVec 32)
  | transport (w : BitVec 12)
  | commandByte (b : Byte)
  deriving DecidableEq, Repr

/-- The host operations: what the host request port can express (R95, R98, R214). -/
def Instr.isHost : Instr → Bool
  | .construct _ _ _ => true
  | .clear => true
  | .home => true
  | .setCursorPosition _ _ => true
  | .createChar _ _ => true
  | .setDisplay _ => true
  | .setCursor _ => true
  | .setBlink _ => true
  | .setBacklight _ => true
  | .print _ => true
  | .write _ => true
  | .expanderWrite _ => false
  | .pulseEnable _ => false
  | .write4bits _ => false
  | .send _ _ => false
  | .command _ => false
  | .cmdClear => false
  | .cmdHome => false
  | .cmdEntryMode _ _ => false
  | .cmdDisplayControl _ _ _ => false
  | .cmdFunctionSet _ _ _ => false
  | .cmdSetCgram _ => false
  | .cmdSetDdram _ => false

/-- `CONSTRUCT`, the one request admitted in every phase (R31, R140). -/
def Instr.isConstruct : Instr → Bool
  | .construct _ _ _ => true
  | _ => false

end Sys2Proof
end

