-- ==== Sys2Proof/Machine/State.lean ====
section
/-! DEFINITION. The state of LCDENC: the table of 10_state.md R20, the five ports of 60_exceptions.md R217
as plain data, and the configuration record of 00_scope.md R10; and its value after hardware reset. -/

namespace Sys2Proof.Machine

/-- `PHASE`: whether a constructed instance exists (R31). -/
inductive Phase where
  | unconstructed
  | ready
  | failed
  deriving DecidableEq, Repr

/-- The reasons of a refusal that the host is told (R33, R211). -/
inductive RefusalCode where
  | notReady
  | illegalRequest
  | badConfig
  deriving DecidableEq, Repr

/-- `RESULT`: what the last finished request handed to the host (R33). -/
inductive Result where
  | ok
  | err (e : Err)
  | refused (r : RefusalCode)
  deriving DecidableEq, Repr

/-- `SEQ`, the block's program counter: idle, or the operation with its operands and the index of its
next event (R32). -/
inductive Seq where
  | idle
  | running (op : Instr) (idx : Nat)
  deriving DecidableEq, Repr

/-- `ROW_OFF[0..3]`, the four row-start DDRAM offsets (R23). -/
structure RowOff where
  r0 : Byte
  r1 : Byte
  r2 : Byte
  r3 : Byte
  deriving DecidableEq, Repr

/-- `CTL`, the Control Aggregator: four flag values and the entry direction (R25). -/
structure Ctl where
  cursor : Flag
  display : Flag
  blink : Flag
  backlight : Flag
  direction : Direction
  deriving DecidableEq, Repr

/-- The data and control registers (R20). -/
structure Regs where
  addr : DevAddr
  cols : Byte
  rows : Byte
  rowOff : RowOff
  ctl : Ctl
  curRow : Byte
  deriving DecidableEq, Repr

/-- An event of the block (R8): a bus write of one byte to a device address, a delay request in
milliseconds, a delay request in microseconds. -/
inductive Event where
  | w (a : DevAddr) (v : Byte)
  | dms (n : Byte)
  | dus (n : Byte)
  deriving DecidableEq, Repr

/-- One entry of the record of events: the event and what came back over the port (R217). -/
structure Entry where
  event : Event
  answer : Answer
  deriving DecidableEq, Repr

/-- The ports (R217) and what the environment holds ready at them. -/
structure Env where
  /-- The request words that will be presented, first one first: those of the host request port (R94, R217), of
  the internal transport port (R98) and of the model's own command-byte port [log 11], ALL IN ONE QUEUE. The
  spec gives no order between the ports; that they share one arrival order is the model's choice [log 25,
  DESIGN CHOICE]. -/
  requests : List PortWord
  /-- The payload stream, of host words only (R97). -/
  payload : List Byte
  /-- The byte sink's answers to the next bus writes, where they are fixed [log 3]. -/
  sink : List Answer
  /-- How many bus writes have been made: it numbers the free answers (the model's own) [log 3]. -/
  writes : Nat
  /-- The event trace of the bus and delay ports, oldest first (R8) [log 6]. -/
  trace : List Entry
  /-- The result port: one result per request, oldest first (R8, R217) [log 6]. -/
  results : List Result
  /-- Hardware reset is asserted (R230) [log 15]. -/
  resetLine : Bool
  deriving DecidableEq, Repr

/-- The whole state. -/
structure State where
  /-- The configuration record of R10; no step writes it [log 5]. -/
  cfg : Config
  regs : Regs
  phase : Phase
  seq : Seq
  result : Result
  env : Env
  deriving DecidableEq, Repr

/-- Why the machine would stop. It has no constructor: nothing in the spec stops this block. Its one
error, a failed bus write, ends the operation and leaves the block idle (R203), and every other
condition is answered with a result (R211). Safe: the model never stops where the hardware goes on. -/
inductive Fault where
  deriving DecidableEq, Repr

/-- Why an instruction would have no meaning. -/
inductive Refusal where
  /-- Raised only by an arm of `exec` whose instruction has no meaning yet; no arm is such. Safe. -/
  | notModelled (mnemonic : String)
  deriving DecidableEq, Repr

/-- The registers after hardware reset. R36 leaves every one unspecified; zero, Off and Right are the
model's choice [log 2, DESIGN CHOICE]. -/
def Regs.reset : Regs where
  addr := 0
  cols := 0
  rows := 0
  rowOff := ⟨0, 0, 0, 0⟩
  ctl := ⟨.off, .off, .off, .off, .right⟩
  curRow := 0

/-- Nothing presented at any port, nothing recorded. -/
def Env.empty : Env := ⟨[], [], [], 0, [], [], false⟩

/-- The block after hardware reset, for a configuration: `PHASE = UNCONSTRUCTED`, `SEQ = IDLE`, all else
unspecified, no event (R36, R230); `RESULT` is the model's choice [log 2, DESIGN CHOICE]. -/
def State.resetWith (c : Config) (e : Env) : State where
  cfg := c
  regs := Regs.reset
  phase := .unconstructed
  seq := .idle
  result := .ok
  env := e

/-- The machine right after reset, with the configuration of R10's table. -/
def State.reset : State := State.resetWith Config.spec Env.empty

end Sys2Proof.Machine
end

