-- ==== Sys2Proof/Machine/Operands.lean ====
section
/-! DEFINITION. Operand and bit assembly (30_encoding.md R88 to R93, R104): the role tag, the nibble split,
the geometry and the address commands. -/

namespace Sys2Proof.Machine

/-- The bit pattern an On/Off flag contributes: Off is 0x00 (R25). -/
def flagPattern (f : Flag) (pattern : Byte) : Byte :=
  match f with
  | .off => 0
  | .on => pattern

/-- The role tag OR-ed into a nibble transfer: Command = 0x00, RegisterSelect = `RS_BIT` (R82). -/
def roleTag (c : Config) : Role → Byte
  | .command => 0
  | .registerSelect => c.rsBit

/-- The high nibble, already in bits 7..4 (R92). -/
def hiNibble (data : Byte) : Byte := data &&& 0xF0

/-- The low nibble moved to bits 7..4 (R92). -/
def loNibble (data : Byte) : Byte := (data <<< 4) &&& 0xF0

/-! ### Geometry -/

/-- The four row-start offsets of a column count; the last sum drops its carry (R23, R104(c)). -/
def rowOffsets (cols : Byte) : RowOff := ⟨0x00, 0x40, cols, 0x40 + cols⟩

/-- `ROW_OFF[n]`; `n` is at most 3 wherever it is used (R24). -/
def RowOff.get (o : RowOff) : Nat → Byte
  | 0 => o.r0
  | 1 => o.r1
  | 2 => o.r2
  | _ => o.r3

/-- `min(row, ROWS - 1, 3)` (R24, R104(d), (e)). `ROWS >= 1` whenever a request gets here; the
subtraction is on naturals, so `ROWS = 0` would give row 0 [log 23]. -/
def effectiveRow (r : Regs) (row : Byte) : Nat := min row.toNat (min (r.rows.toNat - 1) 3)

/-- The row-start offset a row operand selects (R24). -/
def rowStart (r : Regs) (row : Byte) : Byte := r.rowOff.get (effectiveRow r row)

/-- `(col + ROW_OFF[r]) mod 256` (R90). -/
def ddramAddress (r : Regs) (col row : Byte) : Byte := col + rowStart r row

/-- The set-DDRAM command byte of a position (R90). -/
def ddramByte (c : Config) (r : Regs) (col row : Byte) : Byte := c.opDdram ||| ddramAddress r col row

/-- The set-CGRAM command byte of a location: the low 3 bits select the slot, the configured shift (3, D12)
makes it an address (R91). -/
def cgramByte (c : Config) (location : Byte) : Byte :=
  c.opCgram ||| ((location &&& 0x07) <<< c.cgramShift)

/-- With `ARITH_OVERFLOW = refuse`: the sum of a position exceeds 0xFF (R104(c)). -/
def positionOverflows (c : Config) (r : Regs) (col row : Byte) : Bool :=
  c.arithOverflow == .refuse && decide (0xFF < col.toNat + (rowStart r row).toNat)

/-- With `ARITH_OVERFLOW = refuse`: `0x40 + cols` exceeds 0xFF (R104(c), R140). -/
def geometryOverflows (c : Config) (cols : Byte) : Bool :=
  c.arithOverflow == .refuse && decide (0xFF < 0x40 + cols.toNat)

/-! ### Function-set and entry-mode bytes -/

/-- The width bits of a function-set command (R87). -/
def widthPattern (c : Config) : Width → Byte
  | .four => c.f4Bit
  | .eight => c.f8Bit

/-- The line-count bits (R87). -/
def linesPattern (c : Config) : LineCount → Byte
  | .one => c.f1Line
  | .two => c.f2Line

/-- The dot-format bits (R87). -/
def fontPattern (c : Config) : Font → Byte
  | .dots5x8 => c.f5x8
  | .dots5x10 => c.f5x10

/-- The direction bits of an entry-mode command (R25, R86). -/
def directionPattern (c : Config) : Direction → Byte
  | .right => c.fEntryRight
  | .left => c.fEntryLeft

/-- The shift bits of an entry-mode command (R86). -/
def shiftPattern (c : Config) : Flag → Byte
  | .off => c.fShiftOff
  | .on => c.fShiftOn

/-- `FS_8BIT_NIBBLE` (R88). -/
def fs8BitNibble (c : Config) : Byte := c.opFuncset ||| widthPattern c .eight

/-- `FS_4BIT_NIBBLE` (R88). -/
def fs4BitNibble (c : Config) : Byte := c.opFuncset ||| widthPattern c .four

/-- The full function-set command byte (R84, R87). -/
def functionSetByte (c : Config) (w : Width) (n : LineCount) (f : Font) : Byte :=
  c.opFuncset ||| widthPattern c w ||| linesPattern c n ||| fontPattern c f

/-- The entry-mode command byte (R84, R86). -/
def entryModeByte (c : Config) (d : Direction) (shift : Flag) : Byte :=
  c.opEntry ||| directionPattern c d ||| shiftPattern c shift

/-- `FS_FULL`: 4-bit width, two lines, 5x8 dots (R88). -/
def fsFull (c : Config) : Byte := functionSetByte c .four .two .dots5x8

/-- `ENTRY_LTR`: the constant Left, not `CTL.direction` (R88, R148, D24). -/
def entryLtr (c : Config) : Byte := entryModeByte c .left .off

end Sys2Proof.Machine
end

