-- ==== Sys2Proof/Machine/Flags.lean ====
section
/-! DEFINITION. The Control Aggregator: its defaults, its reduction to a byte, the backlight bit of every
bus write, and the replacement of one field (10_state.md R25 to R29, R37; 30_encoding.md R89). -/

namespace Sys2Proof.Machine

/-- The default state `CONSTRUCT` loads (R26). -/
def Ctl.defaults : Ctl where
  cursor := .off
  display := .off
  blink := .off
  backlight := .on
  direction := .left

/-- `CTL.value()`: the OR of the blink, cursor, display and backlight patterns; not the direction (R27,
R28). -/
def Ctl.value (c : Config) (k : Ctl) : Byte :=
  flagPattern k.blink c.fBlinkOn ||| flagPattern k.cursor c.fCursorOn |||
    flagPattern k.display c.fDisplayOn ||| flagPattern k.backlight c.blBit

/-- `bl()`, the backlight bit of every wire byte (R29). -/
def bl (c : Config) (r : Regs) : Byte := flagPattern r.ctl.backlight c.blBit

/-- `DISPCTL()`, the display-control command byte (R89). -/
def dispctlByte (c : Config) (r : Regs) : Byte := c.opDispctl ||| r.ctl.value c

/-- `CTL.display <- flag` (R37, R190). -/
def Regs.setDisplay (r : Regs) (f : Flag) : Regs := { r with ctl := { r.ctl with display := f } }

/-- `CTL.cursor <- flag` (R37, R191). -/
def Regs.setCursor (r : Regs) (f : Flag) : Regs := { r with ctl := { r.ctl with cursor := f } }

/-- `CTL.blink <- flag` (R37, R192). -/
def Regs.setBlink (r : Regs) (f : Flag) : Regs := { r with ctl := { r.ctl with blink := f } }

/-- `CTL.backlight <- flag` (R37, R193). -/
def Regs.setBacklight (r : Regs) (f : Flag) : Regs := { r with ctl := { r.ctl with backlight := f } }

/-- The registers `CONSTRUCT` loads before its first event (R140, R23, R26, R30). -/
def Regs.construct (addr : DevAddr) (cols rows : Byte) : Regs where
  addr := addr
  cols := cols
  rows := rows
  rowOff := rowOffsets cols
  ctl := Ctl.defaults
  curRow := 0

/-- `CUR_ROW <- min(max(CUR_ROW + 1, 1), ROWS)`, the sum in the naturals (R166, R104(f)). -/
def Regs.newline (r : Regs) : Regs :=
  { r with curRow := BitVec.ofNat 8 (min (max (r.curRow.toNat + 1) 1) r.rows.toNat) }

end Sys2Proof.Machine
end

