-- ==== Sys2Proof/Machine/Ops.lean ====
section
/-! DEFINITION. The shared operations: the bus write and the delays (20_memory.md R51, 60_exceptions.md
R215), handing a result to the host, taking the one error (R203), refusing (R211), hardware reset
(70_reset_and_hazards.md R230), and one step of an operation under the sequencer (10_state.md R32). -/

namespace Sys2Proof.Machine

/-- What a host or a prover reads a step's outcome as. -/
abbrev Out := Host.Outcome State Fault Refusal

/-! ### Events -/

/-- Adds an event and its answer to the record of the bus and delay ports (R8, R53). -/
def State.record (s : State) (ev : Event) (a : Answer) : State :=
  { s with env := { s.env with trace := s.env.trace ++ [⟨ev, a⟩] } }

/-- The byte sink's answer to the next bus write: scripted while the script lasts, free after that
(R7) [log 3]. -/
def Env.nextAnswer (e : Env) : Answer :=
  match e.sink with
  | a :: _ => a
  | [] => Config.sinkAnswer e.writes

/-- The wire byte of `EXPANDER_WRITE(data)`: the backlight bit is OR-ed into every write (R29, R120). -/
def wireByte (s : State) (data : Byte) : Byte := data ||| bl s.cfg s.regs

/-- `MemWrite(ADDR, 1, v)`: the event `W(ADDR, v)`, recorded with the sink's answer, of which one is used
up (R51, R52, R54). -/
def State.memWrite (s : State) (v : Byte) : State :=
  { s with env := { s.env with
      trace := s.env.trace ++ [⟨.w s.regs.addr v, s.env.nextAnswer⟩]
      sink := s.env.sink.tail
      writes := s.env.writes + 1 } }

/-- `DelayMs(n)` / `DelayUs(n)`: the event, which cannot fail (R12, R215); elapsed time is not modelled. -/
def State.delay (s : State) (ev : Event) : State := s.record ev .ok

/-! ### Results -/

/-- The end of a request: `SEQ <- IDLE`, `RESULT` and the result port take the result, and the phase
becomes `p` (R31, R32, R33). -/
def State.finish (s : State) (r : Result) (p : Phase) : State :=
  { s with
    phase := p
    seq := .idle
    result := r
    env := { s.env with results := s.env.results ++ [r] } }

/-- A refusal: no event and no change of state but `RESULT` (R211). -/
def State.refuse (s : State) (r : RefusalCode) : State := s.finish (.refused r) s.phase

/-- Taking `BusError(e)`: control leaves every enclosing primitive, `SEQ <- IDLE`, `RESULT <- Err(e)` with
`e` unchanged, nothing rolled back; the phase is `p`, which differs from the old one only for `CONSTRUCT`
(R200, R203, R204, R205). There is no return operation (R210). -/
def State.raiseBusError (s : State) (e : Err) (p : Phase) : State := s.finish (.err e) p

/-- Hardware reset (R230): the block as after reset, an operation in progress abandoned with no result,
no event. The ports' contents are the environment's and stay; the line is served [log 15]. -/
def State.hardwareReset (s : State) : State :=
  State.resetWith s.cfg { s.env with resetLine := false }

/-! ### Operations -/

/-- One event as an operation's rule writes it: `EXPANDER_WRITE(data)`, `DelayMs(n)`, `DelayUs(n)`. -/
inductive Micro where
  | out (data : Byte)
  | dms (n : Byte)
  | dus (n : Byte)
  deriving DecidableEq, Repr

/-- An operation as its rule gives it. -/
structure Operation where
  /-- The request, which `SEQ` holds while it runs (R32). -/
  instr : Instr
  /-- Admitted in `PHASE = READY` only (R31). -/
  needsReady : Bool := true
  /-- Answered `Refused(BadConfig)` (R211). -/
  badConfig : Config → Regs → Bool := fun _ _ => false
  /-- The register writes that stand immediately before the event of an index. -/
  enter : Nat → Regs → Regs := fun _ r => r
  /-- The operation's events in order; the event of an index is read from the registers at that point
  (R32, R66). -/
  plan : Config → Regs → List Micro
  /-- Where a write that fails at an index is caught, and the index at which the operation goes on (R203). -/
  resume : Config → Nat → Option Nat := fun _ _ => none
  /-- `PHASE` after the last event. -/
  phaseOk : Phase → Phase := fun p => p
  /-- `PHASE` after an error that is not caught. -/
  phaseErr : Phase → Phase := fun p => p

/-- Arriving before the event of index `idx`: the register writes placed there are made; past the last
event the operation ends with `Ok` (R32) [log 14]. -/
def arrive (o : Operation) (idx : Nat) (s : State) : State :=
  let s1 := { s with regs := o.enter idx s.regs }
  if idx < (o.plan s1.cfg s1.regs).length then { s1 with seq := .running o.instr idx }
  else s1.finish .ok (o.phaseOk s1.phase)

/-- A request offered to the idle block: refused, `NotReady` before `BadConfig`, or accepted, which brings
it before its first event (R211, R36) [log 1]. -/
def offer (o : Operation) (s : State) : State :=
  if o.needsReady && s.phase != .ready then s.refuse .notReady
  else if o.badConfig s.cfg s.regs then s.refuse .badConfig
  else arrive o 0 s

/-- The end of a bus write: the sink accepted it and the operation goes on, or the error is caught, or
it is taken (R203). -/
def afterWrite (o : Operation) (idx : Nat) (a : Answer) (s : State) : State :=
  match a with
  | .ok => arrive o (idx + 1) s
  | .err e =>
    match o.resume s.cfg idx with
    | some next => arrive o next s
    | none => s.raiseBusError e (o.phaseErr s.phase)

/-- One step of the operation in progress: its event of index `idx` (R9, R32). -/
def perform (o : Operation) (idx : Nat) (s : State) : State :=
  match (o.plan s.cfg s.regs)[idx]? with
  | some (.out data) => afterWrite o idx s.env.nextAnswer (s.memWrite (wireByte s data))
  | some (.dms n) => arrive o (idx + 1) (s.delay (.dms n))
  | some (.dus n) => arrive o (idx + 1) (s.delay (.dus n))
  | none => s.finish .ok (o.phaseOk s.phase)

/-- One step of the block on the request `o.instr`: offered when idle, its next event when it is the
request in progress. While another request is in progress the port does not accept this one: no move
(R32, R65, D23) [log 24]. -/
def operate (o : Operation) (s : State) : Out :=
  match s.seq with
  | .idle => .next (offer o s)
  | .running op idx => if op = o.instr then .next (perform o idx s) else .next s

end Sys2Proof.Machine
end

