-- ==== Sys2Proof/Machine/Transport.lean ====
section
/-! DEFINITION. The transport primitives (40_transport.md R120 to R125): `EXPANDER_WRITE`, `PULSE_ENABLE`,
`WRITE4BITS`, `SEND` and the pseudo-operation `COMMAND`, as event lists and as requests of the internal
port. They write no register. -/

namespace Sys2Proof.Machine

/-- `EXPANDER_WRITE(data)` (R120). -/
def expanderWrite (data : Byte) : List Micro := [.out data]

/-- `PULSE_ENABLE(data)` (R121). -/
def pulseEnable (c : Config) (data : Byte) : List Micro :=
  expanderWrite (data ||| c.enBit) ++ [.dus c.tEnUs] ++
    expanderWrite (data &&& ~~~c.enBit) ++ [.dus c.tEnUs]

/-- `WRITE4BITS(value)` (R122). -/
def write4bits (c : Config) (value : Byte) : List Micro :=
  expanderWrite value ++ pulseEnable c value

/-- `SEND(data, role)`: high nibble first (R55, R123). -/
def send (c : Config) (data : Byte) (role : Role) : List Micro :=
  write4bits c (hiNibble data ||| roleTag c role) ++ write4bits c (loNibble data ||| roleTag c role)

/-- `COMMAND(b)` (R124). -/
def command (c : Config) (data : Byte) : List Micro := send c data .command

/-- `EXPANDER_WRITE` as a request of the internal port (R98, R120) [log 10]. -/
def opExpanderWrite (data : Byte) : Operation where
  instr := .expanderWrite data
  plan := fun _ _ => expanderWrite data

def execExpanderWrite (data : Byte) (s : State) : Out := operate (opExpanderWrite data) s

/-- `PULSE_ENABLE` as a request of the internal port (R98, R121). -/
def opPulseEnable (data : Byte) : Operation where
  instr := .pulseEnable data
  plan := fun c _ => pulseEnable c data

def execPulseEnable (data : Byte) (s : State) : Out := operate (opPulseEnable data) s

/-- `WRITE4BITS` as a request of the internal port (R98, R122). -/
def opWrite4bits (value : Byte) : Operation where
  instr := .write4bits value
  plan := fun c _ => write4bits c value

def execWrite4bits (value : Byte) (s : State) : Out := operate (opWrite4bits value) s

/-- `SEND` as a request of the internal port (R98, R123). -/
def opSend (data : Byte) (role : Role) : Operation where
  instr := .send data role
  plan := fun c _ => send c data role

def execSend (data : Byte) (role : Role) (s : State) : Out := operate (opSend data role) s

/-- `COMMAND` (R124). -/
def opCommand (data : Byte) : Operation where
  instr := .command data
  plan := fun c _ => command c data

def execCommand (data : Byte) (s : State) : Out := operate (opCommand data) s

end Sys2Proof.Machine
end

