-- ==== Sys2Proof/Machine/Control.lean ====
section
/-! DEFINITION. Control-flag operations (43_control.md R190 to R194): each replaces one field of `CTL` before
its first event and then tells the hardware. -/

namespace Sys2Proof.Machine

/-- A register write made before the first event only. -/
def atStart (write : Regs → Regs) (idx : Nat) (r : Regs) : Regs := if idx = 0 then write r else r

/-- The display-control command with the new aggregate byte (R89). -/
def sendDispctl (c : Config) (r : Regs) : List Micro := command c (dispctlByte c r)

/-- `SET_DISPLAY(flag)` (R190). -/
def opSetDisplay (flag : Flag) : Operation where
  instr := .setDisplay flag
  enter := atStart (fun r => r.setDisplay flag)
  plan := sendDispctl

def execSetDisplay (flag : Flag) (s : State) : Out := operate (opSetDisplay flag) s

/-- `SET_CURSOR(flag)` (R191). -/
def opSetCursor (flag : Flag) : Operation where
  instr := .setCursor flag
  enter := atStart (fun r => r.setCursor flag)
  plan := sendDispctl

def execSetCursor (flag : Flag) (s : State) : Out := operate (opSetCursor flag) s

/-- `SET_BLINK(flag)` (R192). -/
def opSetBlink (flag : Flag) : Operation where
  instr := .setBlink flag
  enter := atStart (fun r => r.setBlink flag)
  plan := sendDispctl

def execSetBlink (flag : Flag) (s : State) : Out := operate (opSetBlink flag) s

/-- `SET_BACKLIGHT(flag)`: a bare `EXPANDER_WRITE(0x00)` (R193). -/
def opSetBacklight (flag : Flag) : Operation where
  instr := .setBacklight flag
  enter := atStart (fun r => r.setBacklight flag)
  plan := fun _ _ => expanderWrite 0x00

def execSetBacklight (flag : Flag) (s : State) : Out := operate (opSetBacklight flag) s

end Sys2Proof.Machine
end

