-- ==== Sys2Proof/Machine/Display.lean ====
section
/-! DEFINITION. Display commands and data operations (42_commands.md R160 to R166): `CLEAR`, `HOME`,
`SET_CURSOR_POSITION`, `CREATE_CHAR`, `WRITE`, `PRINT`. -/

namespace Sys2Proof.Machine

/-- `CLEAR_BODY()`, also step 6 of `INIT` (R160, R147). -/
def clearBody (c : Config) : List Micro := command c c.opClear ++ [.dms c.tClearMs]

/-- `CLEAR()` (R160). -/
def opClear : Operation where
  instr := .clear
  plan := fun c _ => clearBody c

def execClear (s : State) : Out := operate opClear s

/-- `HOME()` (R161). -/
def opHome : Operation where
  instr := .home
  plan := fun c _ => command c c.opHome ++ [.dms c.tClearMs]

def execHome (s : State) : Out := operate opHome s

/-- `SETPOS_BODY(col, row)` (R162). -/
def setposBody (c : Config) (r : Regs) (col row : Byte) : List Micro := command c (ddramByte c r col row)

/-- `SET_CURSOR_POSITION(col, row)`; with `ARITH_OVERFLOW = refuse` an overflowing sum is refused (R162,
R104). -/
def opSetCursorPosition (col row : Byte) : Operation where
  instr := .setCursorPosition col row
  badConfig := fun c r => positionOverflows c r col row
  plan := fun c r => setposBody c r col row

def execSetCursorPosition (col row : Byte) (s : State) : Out := operate (opSetCursorPosition col row) s

/-- How many events one `SEND` is (R67). -/
def sendLength : Nat := 10

/-- `CREATE_CHAR` in swallow mode: an error in a data byte is caught and the next byte is sent; one in the
set-CGRAM command is not (R163) [log 13]. -/
def createCharResume (c : Config) (idx : Nat) : Option Nat :=
  if c.createCharErrors = .swallow ∧ sendLength ≤ idx then some (sendLength * (idx / sendLength + 1))
  else none

/-- `CREATE_CHAR(location, bitmap)`: the set-CGRAM command, then the bitmap bytes whole, `bitmap[0]` first
(R163, D20). -/
def opCreateChar (location : Byte) (bitmap : List Byte) : Operation where
  instr := .createChar location bitmap
  plan := fun c _ => command c (cgramByte c location) ++ bitmap.flatMap (fun b => send c b .registerSelect)
  resume := createCharResume

def execCreateChar (location : Byte) (bitmap : List Byte) (s : State) : Out :=
  operate (opCreateChar location bitmap) s

/-- `WRITE(byte)` (R164). -/
def opWrite (byte : Byte) : Operation where
  instr := .write byte
  plan := fun c _ => send c byte .registerSelect

def execWrite (byte : Byte) (s : State) : Out := operate (opWrite byte) s

/-- The newline byte of `PRINT` (R165, D14). -/
def newlineByte : Byte := 0x0A

/-- The register write of `NEWLINE()`, made before the first event of a newline byte (R166). -/
def printEnter (text : List Byte) (idx : Nat) (r : Regs) : Regs :=
  if idx % sendLength = 0 ∧ text[idx / sendLength]? = some newlineByte then r.newline else r

/-- The events of one byte of a text: a newline addresses column 0 of `CUR_ROW`, which has been advanced
by then; any other byte is sent as data (R165, R166). -/
def printByte (c : Config) (r : Regs) (b : Byte) : List Micro :=
  if b = newlineByte then setposBody c r 0 r.curRow else send c b .registerSelect

/-- `PRINT(text)` (R165). Every byte is ten events, so the events of the byte being sent are read with the
`CUR_ROW` of that byte. -/
def opPrint (text : List Byte) : Operation where
  instr := .print text
  enter := printEnter text
  plan := fun c r => text.flatMap (printByte c r)

def execPrint (text : List Byte) (s : State) : Out := operate (opPrint text) s

end Sys2Proof.Machine
end

