-- ==== Sys2Proof/Machine/Construct.lean ====
section
/-! DEFINITION. Construction and the initialization state machine (41_init.md R140 to R150). -/

namespace Sys2Proof.Machine

/-- One raw nibble of steps 3 and 4 with its delay (R144, R145). -/
def rawNibble (c : Config) (value : Byte) : List Micro := write4bits c value ++ [.dms c.tFsMs]

/-- Step 1, `S1_POWER_WAIT` (R142). -/
def initPowerWait (c : Config) : List Micro := [.dms c.tPowerupMs]

/-- Step 2, `S2_BACKLIGHT` (R143). -/
def initBacklight (c : Config) (r : Regs) : List Micro := expanderWrite (bl c r) ++ [.dms c.tBlMs]

/-- Step 3, `S3A_FS8` to `S3C_FS8`: three times, not deduplicated (R144, R241). -/
def initFs8 (c : Config) : List Micro :=
  rawNibble c (fs8BitNibble c) ++ rawNibble c (fs8BitNibble c) ++ rawNibble c (fs8BitNibble c)

/-- Step 4, `S4_FS4` (R145). -/
def initFs4 (c : Config) : List Micro := rawNibble c (fs4BitNibble c)

/-- `INIT()`: the seven steps, in this order and no other (R141); steps 5 to 7 are R146 to R148. -/
def init (c : Config) (r : Regs) : List Micro :=
  initPowerWait c ++ initBacklight c r ++ initFs8 c ++ initFs4 c ++
    command c (fsFull c) ++ clearBody c ++ command c (entryLtr c)

/-- `CONSTRUCT(addr, cols, rows)`: admitted in every phase, `rows = 0` (and with `ARITH_OVERFLOW = refuse` an
overflowing geometry) refused, the registers loaded before the first event, the phase set at the end
(R140, R149, R205). -/
def opConstruct (addr : DevAddr) (cols rows : Byte) : Operation where
  instr := .construct addr cols rows
  needsReady := false
  badConfig := fun c _ => rows == 0 || geometryOverflows c cols
  enter := atStart (fun _ => Regs.construct addr cols rows)
  plan := init
  phaseOk := fun _ => .ready
  phaseErr := fun _ => .failed

def execConstruct (addr : DevAddr) (cols rows : Byte) (s : State) : Out :=
  operate (opConstruct addr cols rows) s

end Sys2Proof.Machine
end

