-- ==== Sys2Proof/WellFormed.lean ====
section
/-! DEFINITION. Which terms of `Instr` a request can denote: every other bound is in the operand types.
A bitmap has exactly eight bytes and a text at most 65535 (30_encoding.md R97). -/

namespace Sys2Proof

/-- The payload bounds of R97. -/
def Instr.wf : Instr → Bool
  | .createChar _ bitmap => bitmap.length == 8
  | .print text => decide (text.length ≤ 65535)
  | .construct _ _ _ => true
  | .clear => true
  | .home => true
  | .setCursorPosition _ _ => true
  | .setDisplay _ => true
  | .setCursor _ => true
  | .setBlink _ => true
  | .setBacklight _ => true
  | .write _ => true
  | .expanderWrite _ => true
  | .pulseEnable _ => true
  | .write4bits _ => true
  | .send _ _ => true
  | .command _ => true
  | .cmdClear => true
  | .cmdHome => true
  | .cmdEntryMode _ _ => true
  | .cmdDisplayControl _ _ _ => true
  | .cmdFunctionSet _ _ _ => true
  | .cmdSetCgram _ => true
  | .cmdSetDdram _ => true

end Sys2Proof
end

