-- ==== Sys2Proof/Decode.lean ====
section
/-! DEFINITION. From request words to `Instr` and back: the host request word (30_encoding.md R94 to R97),
the transport request word (R98), the controller command bytes (R84), and the illegal words (R99). -/

namespace Sys2Proof

/-- Why a request word denotes no operation (R99); the block answers `Refused(IllegalRequest)` to each. -/
inductive Reject where
  /-- Host `op` in 0x0, 0xC..0xF. -/
  | reservedOp
  /-- Host bits 27..24 not zero. -/
  | reservedBits
  /-- Bit 23 set in `CONSTRUCT`. -/
  | constructBit23
  /-- A non-zero field that the operation does not use. -/
  | unusedField
  /-- Bits 7..1 of a flag field not zero. -/
  | flagField
  /-- A transport `role` of `10` or `11`, or a non-zero `role` beside a `top` other than `11`. -/
  | roleField
  /-- A byte that is no command of R84's table. -/
  | noCommand
  /-- The payload offered is not as long as the word says (R97); the fetch never offers such a one. -/
  | payloadLength
  deriving DecidableEq, Repr

/-! ### Fields -/

/-- `op`, bits 31..28 (R94). -/
def hostOp (w : BitVec 32) : BitVec 4 := w.extractLsb' 28 4

/-- Bits 27..24, which must be zero (R94). -/
def hostZero (w : BitVec 32) : BitVec 4 := w.extractLsb' 24 4

/-- The operand field `x`, bits 23..16 (R94). -/
def hostX (w : BitVec 32) : Byte := w.extractLsb' 16 8

/-- The operand field `y`, bits 15..8 (R94). -/
def hostY (w : BitVec 32) : Byte := w.extractLsb' 8 8

/-- The operand field `z`, bits 7..0 (R94). -/
def hostZ (w : BitVec 32) : Byte := w.extractLsb' 0 8

/-- `top`, bits 11..10 (R98). -/
def transportTop (w : BitVec 12) : BitVec 2 := w.extractLsb' 10 2

/-- `role`, bits 9..8 (R98). -/
def transportRole (w : BitVec 12) : BitVec 2 := w.extractLsb' 8 2

/-- `data`, bits 7..0 (R98). -/
def transportData (w : BitVec 12) : Byte := w.extractLsb' 0 8

/-! ### The length of a request -/

/-- How many payload bytes follow a host word: 8 for `op = 0x5`, `len = {y, z}` for `op = 0xA`, none
otherwise; told from the word alone (R97). -/
def hostPayloadLength (w : BitVec 32) : Nat :=
  match (hostOp w).toNat with
  | 0x5 => 8
  | 0xA => 256 * (hostY w).toNat + (hostZ w).toNat
  | _ => 0

/-- Only host words have a payload (R97). -/
def payloadLength : PortWord → Nat
  | .host w => hostPayloadLength w
  | .transport _ => 0
  | .commandByte _ => 0

/-! ### Decoding -/

/-- A flag operand in bit 0 of `z`, bits 7..1 zero (R95, R96, R99). -/
def decodeFlag (z : Byte) : Except Reject Flag :=
  if z = 0 then .ok .off else if z = 1 then .ok .on else .error .flagField

/-- A `SET_*` word: `x` and `y` unused, the flag in `z` (R95). -/
def decodeSet (make : Flag → Instr) (x y z : Byte) : Except Reject Instr :=
  if x = 0 ∧ y = 0 then (decodeFlag z).map make else .error .unusedField

/-- The operation and operand fields of a host word (R95), `payload` being its payload bytes. -/
def decodeHostFields (op : Nat) (x y z : Byte) (payload : List Byte) : Except Reject Instr :=
  match op with
  | 0x1 => if x.msb then .error .constructBit23 else .ok (.construct (x.setWidth 7) y z)
  | 0x2 => if x = 0 ∧ y = 0 ∧ z = 0 then .ok .clear else .error .unusedField
  | 0x3 => if x = 0 ∧ y = 0 ∧ z = 0 then .ok .home else .error .unusedField
  | 0x4 => if x = 0 then .ok (.setCursorPosition y z) else .error .unusedField
  | 0x5 => if x = 0 ∧ y = 0 then .ok (.createChar z payload) else .error .unusedField
  | 0x6 => decodeSet .setDisplay x y z
  | 0x7 => decodeSet .setCursor x y z
  | 0x8 => decodeSet .setBlink x y z
  | 0x9 => decodeSet .setBacklight x y z
  | 0xA => if x = 0 then .ok (.print payload) else .error .unusedField
  | 0xB => if x = 0 ∧ y = 0 then .ok (.write z) else .error .unusedField
  | _ => .error .reservedOp

/-- A host request word with its payload (R94 to R97, R99). -/
def decodeHost (w : BitVec 32) (payload : List Byte) : Except Reject Instr :=
  if payload.length ≠ hostPayloadLength w then .error .payloadLength
  else if hostZero w ≠ 0 then .error .reservedBits
  else decodeHostFields (hostOp w).toNat (hostX w) (hostY w) (hostZ w) payload

/-- A transport request word (R98, R99). -/
def decodeTransport (w : BitVec 12) : Except Reject Instr :=
  let data := transportData w
  let role := (transportRole w).toNat
  match (transportTop w).toNat with
  | 0 => if role = 0 then .ok (.expanderWrite data) else .error .roleField
  | 1 => if role = 0 then .ok (.pulseEnable data) else .error .roleField
  | 2 => if role = 0 then .ok (.write4bits data) else .error .roleField
  | _ =>
    match role with
    | 0 => .ok (.send data .command)
    | 1 => .ok (.send data .registerSelect)
    | _ => .error .roleField

/-- Bit `i` of a byte as a flag value (R25: Off = 0, On = 1). -/
def flagBit (b : Byte) (i : Nat) : Flag := if b.getLsbD i then .on else .off

/-- A controller command byte: its opcode is its highest set bit (R84), the operand bits lie below it
(R85, R86, R87). 0x00 and the opcode 0x10 are no commands of the table, nor are patterns that set a bit
the table has at zero. -/
def decodeCommandByte (b : Byte) : Except Reject Instr :=
  if b.getLsbD 7 then .ok (.cmdSetDdram (b.setWidth 7))
  else if b.getLsbD 6 then .ok (.cmdSetCgram (b.setWidth 6))
  else if b.getLsbD 5 then
    if b.extractLsb' 0 2 = 0 then
      .ok (.cmdFunctionSet (if b.getLsbD 4 then .eight else .four)
        (if b.getLsbD 3 then .two else .one) (if b.getLsbD 2 then .dots5x10 else .dots5x8))
    else .error .noCommand
  else if b.getLsbD 4 then .error .noCommand
  else if b.getLsbD 3 then .ok (.cmdDisplayControl (flagBit b 2) (flagBit b 1) (flagBit b 0))
  else if b.getLsbD 2 then
    .ok (.cmdEntryMode (if b.getLsbD 1 then .left else .right) (flagBit b 0))
  else if b = 0x02 then .ok .cmdHome
  else if b = 0x01 then .ok .cmdClear
  else .error .noCommand

/-- The decoder, total on any word and payload. -/
def decode (w : PortWord) (payload : List Byte) : Except Reject Instr :=
  match w with
  | .host h => decodeHost h payload
  | .transport t => if payload = [] then decodeTransport t else .error .payloadLength
  | .commandByte b => if payload = [] then decodeCommandByte b else .error .payloadLength

/-! ### Encoding -/

/-- A host word from its fields (R94). -/
def hostWord (op : BitVec 4) (x y z : Byte) : BitVec 32 := op ++ 0#4 ++ x ++ y ++ z

/-- A transport word from its fields (R98). -/
def transportWord (top role : BitVec 2) (data : Byte) : BitVec 12 := top ++ role ++ data

/-- A flag in one bit (R96). -/
def Flag.bit : Flag → BitVec 1
  | .off => 0
  | .on => 1

/-- The flag operand field `z` of a `SET_*` word (R95). -/
def Flag.field (f : Flag) : Byte := 0#7 ++ f.bit

/-- The two-bit role field (R82, R98). -/
def Role.field : Role → BitVec 2
  | .command => 0
  | .registerSelect => 1

/-- `i`: Left = 1 (R86). -/
def Direction.bit : Direction → BitVec 1
  | .right => 0
  | .left => 1

/-- `w`: 8-bit = 1 (R87). -/
def Width.bit : Width → BitVec 1
  | .four => 0
  | .eight => 1

/-- `n`: two lines = 1 (R87). -/
def LineCount.bit : LineCount → BitVec 1
  | .one => 0
  | .two => 1

/-- `f`: 5x8 = 0 (R87). -/
def Font.bit : Font → BitVec 1
  | .dots5x8 => 0
  | .dots5x10 => 1

/-- The word of a request (R95, R98, R84's patterns). `COMMAND` shares `SEND`'s word (R124). -/
def encodeWord : Instr → PortWord
  | .construct addr cols rows => .host (hostWord 0x1 (0#1 ++ addr) cols rows)
  | .clear => .host (hostWord 0x2 0 0 0)
  | .home => .host (hostWord 0x3 0 0 0)
  | .setCursorPosition col row => .host (hostWord 0x4 0 col row)
  | .createChar location _ => .host (hostWord 0x5 0 0 location)
  | .setDisplay f => .host (hostWord 0x6 0 0 f.field)
  | .setCursor f => .host (hostWord 0x7 0 0 f.field)
  | .setBlink f => .host (hostWord 0x8 0 0 f.field)
  | .setBacklight f => .host (hostWord 0x9 0 0 f.field)
  | .print text =>
    .host (hostWord 0xA 0 (BitVec.ofNat 8 (text.length / 256)) (BitVec.ofNat 8 (text.length % 256)))
  | .write byte => .host (hostWord 0xB 0 0 byte)
  | .expanderWrite data => .transport (transportWord 0 0 data)
  | .pulseEnable data => .transport (transportWord 1 0 data)
  | .write4bits value => .transport (transportWord 2 0 value)
  | .send data role => .transport (transportWord 3 role.field data)
  | .command data => .transport (transportWord 3 Role.command.field data)
  | .cmdClear => .commandByte 0x01
  | .cmdHome => .commandByte 0x02
  | .cmdEntryMode i s => .commandByte (0b000001#6 ++ i.bit ++ s.bit)
  | .cmdDisplayControl d c b => .commandByte (0b00001#5 ++ d.bit ++ c.bit ++ b.bit)
  | .cmdFunctionSet w n f => .commandByte (0b001#3 ++ w.bit ++ n.bit ++ f.bit ++ 0#2)
  | .cmdSetCgram a => .commandByte (0b01#2 ++ a)
  | .cmdSetDdram a => .commandByte (0b1#1 ++ a)

/-- The payload that follows the word of a request, in order (R97). -/
def encodePayload : Instr → List Byte
  | .createChar _ bitmap => bitmap
  | .print text => text
  | _ => []

/-- The words of a request: its word and its payload bytes. -/
def encode (i : Instr) : PortWord × List Byte := (encodeWord i, encodePayload i)

/-- What the words of a request denote: `COMMAND(b)` has no words of its own and reads back as
`SEND(b, Command)` (R111, R124) [log 12]. -/
def Instr.canonical : Instr → Instr
  | .command data => .send data .command
  | i => i

/-! ### The opcode table's numbering -/

/-- The port word whose bits are `w`, for a table row of `nbits` bits in whole bytes: 8 a controller
command, 12 or 16 a transport word, 32 a host word. A port word is one number, bit 0 its least
significant bit (R11); a 12-bit word has nothing above bit 11 [log 19]. -/
def tableWord (nbits w : Nat) : Option PortWord :=
  if nbits ≤ 8 then if w < 2 ^ 8 then some (.commandByte (BitVec.ofNat 8 w)) else none
  else if nbits ≤ 16 then if w < 2 ^ 12 then some (.transport (BitVec.ofNat 12 w)) else none
  else if w < 2 ^ 32 then some (.host (BitVec.ofNat 32 w)) else none

/-- A payload of zeros as long as a word says. -/
def zeroPayload (w : PortWord) : List Byte := List.replicate (payloadLength w) 0

/-- The request the decoder reads from a table word, its payload bytes zero. -/
def decodeTableWord (nbits w : Nat) : Option Instr :=
  match tableWord nbits w with
  | none => none
  | some p => (decode p (zeroPayload p)).toOption

end Sys2Proof
end

