-- ==== Sys2Proof/Machine/Controller.lean ====
section
/-! DEFINITION. The emitted controller commands (30_encoding.md R84): each is a logical byte sent with role
Command, which is `COMMAND` of its pattern (40_transport.md R124). What the controller does with it is
outside the block (00_scope.md R4) [log 11]. -/

namespace Sys2Proof.Machine

/-- The command byte of a CMD row, as the table's pattern gives it (R84). -/
def commandByteOf (i : Instr) : Byte :=
  match encodeWord i with
  | .commandByte b => b
  | _ => 0

/-- A CMD row under the sequencer: `COMMAND` of its byte (R124). -/
def emit (i : Instr) : Operation where
  instr := i
  plan := fun c _ => command c (commandByteOf i)

def execCmdClear (s : State) : Out := operate (emit .cmdClear) s

def execCmdHome (s : State) : Out := operate (emit .cmdHome) s

def execCmdEntryMode (d : Direction) (shift : Flag) (s : State) : Out :=
  operate (emit (.cmdEntryMode d shift)) s

def execCmdDisplayControl (d c b : Flag) (s : State) : Out :=
  operate (emit (.cmdDisplayControl d c b)) s

def execCmdFunctionSet (w : Width) (n : LineCount) (f : Font) (s : State) : Out :=
  operate (emit (.cmdFunctionSet w n f)) s

def execCmdSetCgram (a : BitVec 6) (s : State) : Out := operate (emit (.cmdSetCgram a)) s

def execCmdSetDdram (a : BitVec 7) (s : State) : Out := operate (emit (.cmdSetDdram a)) s

end Sys2Proof.Machine
end

