-- ==== Sys2Proof/Machine/Dispatch.lean ====
section
/-! DEFINITION. One arm per constructor of `Instr`: one step of the block on that request. -/

namespace Sys2Proof.Machine

def exec (i : Instr) (s : State) : Host.Outcome State Fault Refusal :=
  match i with
  | .construct addr cols rows => Sys2Proof.Machine.execConstruct addr cols rows s
  | .clear => Sys2Proof.Machine.execClear s
  | .home => Sys2Proof.Machine.execHome s
  | .setCursorPosition col row => Sys2Proof.Machine.execSetCursorPosition col row s
  | .createChar location bitmap => Sys2Proof.Machine.execCreateChar location bitmap s
  | .setDisplay flag => Sys2Proof.Machine.execSetDisplay flag s
  | .setCursor flag => Sys2Proof.Machine.execSetCursor flag s
  | .setBlink flag => Sys2Proof.Machine.execSetBlink flag s
  | .setBacklight flag => Sys2Proof.Machine.execSetBacklight flag s
  | .print text => Sys2Proof.Machine.execPrint text s
  | .write byte => Sys2Proof.Machine.execWrite byte s
  -- the internal port
  | .expanderWrite data => Sys2Proof.Machine.execExpanderWrite data s
  | .pulseEnable data => Sys2Proof.Machine.execPulseEnable data s
  | .write4bits value => Sys2Proof.Machine.execWrite4bits value s
  | .send data role => Sys2Proof.Machine.execSend data role s
  | .command data => Sys2Proof.Machine.execCommand data s
  -- emitted controller commands
  | .cmdClear => Sys2Proof.Machine.execCmdClear s
  | .cmdHome => Sys2Proof.Machine.execCmdHome s
  | .cmdEntryMode direction shift => Sys2Proof.Machine.execCmdEntryMode direction shift s
  | .cmdDisplayControl display cursor blink => Sys2Proof.Machine.execCmdDisplayControl display cursor blink s
  | .cmdFunctionSet width lines font => Sys2Proof.Machine.execCmdFunctionSet width lines font s
  | .cmdSetCgram address => Sys2Proof.Machine.execCmdSetCgram address s
  | .cmdSetDdram address => Sys2Proof.Machine.execCmdSetDdram address s

end Sys2Proof.Machine
end

