-- ==== Sys2Proof/Machine/Fetch.lean ====
section
/-! DEFINITION. Taking the next request from the ports (30_encoding.md R97, 60_exceptions.md R217), and
placing one there. -/

namespace Sys2Proof.Machine

/-- What the idle block finds at its ports. -/
inductive Fetched where
  /-- No request, or one whose payload is not all there yet: the block waits (R36, R97) [log 7, log 9]. -/
  | wait
  /-- An illegal word, taken from the ports (R99). -/
  | illegal (s : State)
  /-- A request, taken from the ports with its whole payload (D2). -/
  | request (i : Instr) (s : State)

/-- The state with a request's word and payload taken from the ports: the word is the first of the
queue, its payload the next bytes of the stream, each consumed once (R97) [log 8]. -/
def State.takeRequest (s : State) (w : PortWord) : State :=
  { s with env := { s.env with
      requests := s.env.requests.tail
      payload := s.env.payload.drop (payloadLength w) } }

/-- Looking at the ports (R94, R97, R99). The first word of the one queue is taken, whichever port it stands
at: the spec orders no port before another [log 25, DESIGN CHOICE]. -/
def fetch (s : State) : Fetched :=
  match s.env.requests with
  | [] => .wait
  | w :: _ =>
    if s.env.payload.length < payloadLength w then .wait
    else
      match decode w (s.env.payload.take (payloadLength w)) with
      | .ok i => .request i (s.takeRequest w)
      | .error _ => .illegal (s.takeRequest w)

/-- The state with a request put in front of what stands at the ports. -/
def State.present (s : State) (w : PortWord) (payload : List Byte) : State :=
  { s with env := { s.env with
      requests := w :: s.env.requests
      payload := payload ++ s.env.payload } }

end Sys2Proof.Machine
end

