-- ==== Sys2Proof/Machine/Step.lean ====
section
/-! DEFINITION. One step of the block: hardware reset if it is asserted; else the next event of the
operation in progress; else the next request (00_scope.md R9, 10_state.md R32, 70_reset_and_hazards.md
R230). -/

namespace Sys2Proof.Machine

def step (s : State) : Host.Outcome State Fault Refusal :=
  if s.env.resetLine then .next s.hardwareReset
  else
    match s.seq with
    | .running op _ => exec op s
    | .idle =>
      match fetch s with
      | .wait => .next s
      | .illegal t => .next (t.refuse .illegalRequest)
      | .request i t => exec i t

/-- `s` with the request of a table word at its ports, its payload zeros, the block idle and reset not
asserted, so that the very next step takes it [log 17]. -/
def State.withFetchWord (s : State) (nbits w : Nat) : State :=
  match tableWord nbits w with
  | none => s
  | some p =>
    let t := s.present p (zeroPayload p)
    { t with seq := .idle, env := { t.env with resetLine := false } }

end Sys2Proof.Machine
end

