-- ==== Sys2Proof/Machine/Lines.lean ====
section
/-! DEFINITION. What the outside of the block can be told from its trace: the expander's output lines and
the nibbles a controller latches (10_state.md R35, 20_memory.md R53, R54, 30_encoding.md R80, R81;
70_reset_and_hazards.md R243, R249). These are views of the record; the block cannot read them [log 18].

Where the lines are unknown (before the first write, after a failed write) they are a FREE VALUE: every view
takes a function `u` that gives them, of which nothing is assumed, and `Config.expanderLines` is the model's.
A failed write that did not reach the expander is the value that equals the lines before; one that did is the
byte of the write. -/

namespace Sys2Proof.Machine

/-- Bit 2 of a wire byte: the enable line (R80). -/
def enableLine (v : Byte) : Bool := v.getLsbD 2

/-- The expander's eight output lines at address `a` after entry `k` of the trace, from the lines `now` before
it: an accepted write replaces them all and they hold between writes; after a failed write they are free
(R35, R53, R54). -/
def linesAfter (u : Nat → Byte) (a : DevAddr) (k : Nat) (now : Byte) (e : Entry) : Byte :=
  match e.event with
  | .w b v => if b = a then (match e.answer with | .ok => v | .err _ => u k) else now
  | .dms _ => now
  | .dus _ => now

/-- The lines after entries numbered from `k` on. -/
def linesFrom (u : Nat → Byte) (a : DevAddr) : Nat → Byte → List Entry → Byte
  | _, now, [] => now
  | k, now, e :: es => linesFrom u a (k + 1) (linesAfter u a k now e) es

/-- The expander's output lines at address `a` after a whole trace. -/
def lines (a : DevAddr) (trace : List Entry) : Byte :=
  linesFrom (fun k => Config.expanderLines a (k + 1)) a 0 (Config.expanderLines a 0) trace

/-- The last byte the sink accepted for address `a` (R243). -/
def lastAccepted (a : DevAddr) (trace : List Entry) : Option Byte :=
  trace.foldl (fun l e =>
    match e.event, e.answer with
    | .w b v, .ok => if b = a then some v else l
    | _, _ => l) none

/-- What the controller takes at a falling enable edge: the nibble presented and the register-select
line (R53, R80, Glossary "Enable pulse"). -/
structure Latch where
  nibble : BitVec 4
  registerSelect : Bool
  deriving DecidableEq, Repr

/-- What the lines present to the controller. -/
def Latch.of (v : Byte) : Latch := ⟨v.extractLsb' 4 4, v.getLsbD 0⟩

/-- Between two values of the lines: a falling enable edge latches what the second presents (R53, R243). -/
def edge (before after : Byte) : List Latch :=
  if enableLine before && !enableLine after then [Latch.of after] else []

/-- The nibbles latched at address `a` over entries numbered from `k` on, from the lines `now` before them. -/
def latchesFrom (u : Nat → Byte) (a : DevAddr) : Nat → Byte → List Entry → List Latch
  | _, _, [] => []
  | k, now, e :: es =>
    edge now (linesAfter u a k now e) ++ latchesFrom u a (k + 1) (linesAfter u a k now e) es

/-- The nibbles latched at address `a` over a whole trace. -/
def latches (a : DevAddr) (trace : List Entry) : List Latch :=
  latchesFrom (fun k => Config.expanderLines a (k + 1)) a 0 (Config.expanderLines a 0) trace

/-- The two latches that carry one logical byte, high nibble first (R55, R81). -/
def latchesOfByte (data : Byte) (role : Role) : List Latch :=
  [⟨data.extractLsb' 4 4, role == .registerSelect⟩, ⟨data.extractLsb' 0 4, role == .registerSelect⟩]

end Sys2Proof.Machine
end

