-- ==== Sys2Proof/Safety.lean ====
section
/-! DEFINITION. The terms claims are made in: the events a rule writes out, an operation carried out against
the byte sink as the rules' pseudocode reads, the end of a request, and the invariant of the block. Nothing
here is used by the machine. -/

namespace Sys2Proof

open Machine

/-! ### Runs -/

/-- Steps of the machine. -/
abbrev run (n : Nat) (s : State) : Out := Host.Core.run core n s

/-- Idle in `PHASE = READY`, hardware reset not asserted: where every request is admitted (R31, R32). -/
abbrev ReadyIdle (s : State) : Prop := s.phase = .ready ∧ s.seq = .idle ∧ s.env.resetLine = false

/-- Idle in any phase, hardware reset not asserted. -/
abbrev Idle (s : State) : Prop := s.seq = .idle ∧ s.env.resetLine = false

/-- The request `i`, offered in `s`, is accepted (which gives `accepted`) and, within `bound` further
steps, ends in `t`. -/
def Completes (i : Instr) (s accepted : State) (bound : Nat) (t : State) : Prop :=
  exec i s = .next accepted ∧ ∃ n ≤ bound, run n accepted = .next t

/-- The next `n` bus writes are accepted by the byte sink. -/
abbrev BusAccepts (n : Nat) (s : State) : Prop := s.env.sink.take n = List.replicate n .ok

/-! ### Events as the rules write them -/

/-- The five events of one nibble transfer, with the wire bytes `w1`, `w2`, `w3` of R93. -/
def nibbleEvents (c : Config) (r : Regs) (v : Byte) : List Event :=
  [.w r.addr (v ||| bl c r),
   .w r.addr ((v ||| c.enBit) ||| bl c r), .dus c.tEnUs,
   .w r.addr ((v &&& ~~~c.enBit) ||| bl c r), .dus c.tEnUs]

/-- The ten events of one logical byte: high nibble, low nibble, each with the role tag (R92, R123). -/
def byteEvents (c : Config) (r : Regs) (data : Byte) (role : Role) : List Event :=
  nibbleEvents c r ((data &&& 0xF0) ||| roleTag c role) ++
    nibbleEvents c r (((data <<< 4) &&& 0xF0) ||| roleTag c role)

/-! ### The table of R150

The rows of the rule's table as it prints them, state by state; the wire bytes are those of the default
constants with the backlight On. -/

/-- Rows 3 to 8, 9 to 14, 15 to 20. -/
def initRowsFs8 (a : DevAddr) : List Event :=
  [.w a 0x38, .w a 0x3C, .dus 1, .w a 0x38, .dus 1, .dms 5]

/-- Rows 21 to 26. -/
def initRowsFs4 (a : DevAddr) : List Event :=
  [.w a 0x28, .w a 0x2C, .dus 1, .w a 0x28, .dus 1, .dms 5]

/-- Rows 27 to 36. -/
def initRowsFuncset (a : DevAddr) : List Event :=
  [.w a 0x28, .w a 0x2C, .dus 1, .w a 0x28, .dus 1, .w a 0x88, .w a 0x8C, .dus 1, .w a 0x88, .dus 1]

/-- Rows 37 to 47. -/
def initRowsClear (a : DevAddr) : List Event :=
  [.w a 0x08, .w a 0x0C, .dus 1, .w a 0x08, .dus 1, .w a 0x18, .w a 0x1C, .dus 1, .w a 0x18, .dus 1, .dms 2]

/-- Rows 48 to 57. -/
def initRowsEntry (a : DevAddr) : List Event :=
  [.w a 0x08, .w a 0x0C, .dus 1, .w a 0x08, .dus 1, .w a 0x68, .w a 0x6C, .dus 1, .w a 0x68, .dus 1]

/-- All 58 rows (R150). -/
def initTable (a : DevAddr) : List Event :=
  (.dms 50 :: .w a 0x08 :: .dms 1 :: initRowsFs8 a) ++ initRowsFs8 a ++ initRowsFs8 a ++ initRowsFs4 a ++
    initRowsFuncset a ++ initRowsClear a ++ initRowsEntry a

/-! ### Carrying events out against the byte sink -/

/-- The state after an event and the sink's answer to it: the event is recorded; a bus write uses up one
answer. -/
def afterEvent (ev : Event) (s : State) : State :=
  match ev with
  | .w _ _ =>
    { s with env := { s.env with
        trace := s.env.trace ++ [⟨ev, s.env.nextAnswer⟩]
        sink := s.env.sink.tail
        writes := s.env.writes + 1 } }
  | .dms _ => { s with env := { s.env with trace := s.env.trace ++ [⟨ev, .ok⟩] } }
  | .dus _ => { s with env := { s.env with trace := s.env.trace ++ [⟨ev, .ok⟩] } }

/-- The error an event raises: only a bus write the sink refuses raises one (R201). -/
def errorOf (ev : Event) (s : State) : Option Err :=
  match ev, s.env.nextAnswer with
  | .w _ _, .err e => some e
  | _, _ => none

/-- Carries events out in order up to and including the first that fails (R203): the state then, and the
error if there was one. -/
def carryOut : List Event → State → State × Option Err
  | [], s => (s, none)
  | ev :: evs, s =>
    match errorOf ev s with
    | some e => (afterEvent ev s, some e)
    | none => carryOut evs (afterEvent ev s)

/-- One after the other, the second only if the first raised nothing. -/
def andThen (p : State × Option Err) (next : State → State × Option Err) : State × Option Err :=
  match p with
  | (t, none) => next t
  | (t, some e) => (t, some e)

/-- `PRINT`'s loop (R165): a newline byte first advances `CUR_ROW` to `min(max(CUR_ROW + 1, 1), ROWS)` and
then addresses column 0 of it (R166), any other byte is sent as data. -/
def carryOutText : List Byte → State → State × Option Err
  | [], s => (s, none)
  | b :: bs, s =>
    andThen
      (if b = 0x0A then
        let row := BitVec.ofNat 8 (min (max (s.regs.curRow.toNat + 1) 1) s.regs.rows.toNat)
        let t := { s with regs := { s.regs with curRow := row } }
        carryOut (byteEvents t.cfg t.regs (ddramByte t.cfg t.regs 0 row) .command) t
      else carryOut (byteEvents s.cfg s.regs b .registerSelect) s)
      (carryOutText bs)

/-- `CREATE_CHAR`'s loop with `CREATE_CHAR_ERRORS = swallow`: the error of a byte is discarded and the next
byte starts afresh (R163). -/
def carryOutSwallowing : List Byte → State → State
  | [], s => s
  | b :: bs, s => carryOutSwallowing bs (carryOut (byteEvents s.cfg s.regs b .registerSelect) s).1

/-- The end of a request: `SEQ = IDLE`, `PHASE` as given, the result in `RESULT` and handed to the host
(R32, R33). -/
def ended (r : Result) (p : Phase) (s : State) : State :=
  { s with phase := p, seq := .idle, result := r, env := { s.env with results := s.env.results ++ [r] } }

/-- The end of an operation: `Ok`, or `Err(e)` at the first error (R203). -/
def concluded (okPhase errPhase : Phase) (p : State × Option Err) : State :=
  match p with
  | (t, none) => ended .ok okPhase t
  | (t, some e) => ended (.err e) errPhase t

/-! ### Costs -/

/-- The number of events when nothing fails (R251). -/
def Instr.eventCount : Instr → Nat
  | .construct _ _ _ => 58
  | .clear => 11
  | .home => 11
  | .setCursorPosition _ _ => 10
  | .createChar _ _ => 90
  | .setDisplay _ => 10
  | .setCursor _ => 10
  | .setBlink _ => 10
  | .setBacklight _ => 1
  | .print text => 10 * text.length
  | .write _ => 10
  | .expanderWrite _ => 1
  | .pulseEnable _ => 4
  | .write4bits _ => 5
  | .send _ _ => 10
  | .command _ => 10
  | .cmdClear => 10
  | .cmdHome => 10
  | .cmdEntryMode _ _ => 10
  | .cmdDisplayControl _ _ _ => 10
  | .cmdFunctionSet _ _ _ => 10
  | .cmdSetCgram _ => 10
  | .cmdSetDdram _ => 10

/-- The number of bus writes when nothing fails (R202, R251). -/
def Instr.writeCount : Instr → Nat
  | .construct _ _ _ => 31
  | .createChar _ _ => 54
  | .setBacklight _ => 1
  | .print text => 6 * text.length
  | .expanderWrite _ => 1
  | .pulseEnable _ => 2
  | .write4bits _ => 3
  | _ => 6

/-- Is an event a bus write? -/
def isWrite : Event → Bool
  | .w _ _ => true
  | .dms _ => false
  | .dus _ => false

/-- The indices of an operation at which the enable-high write of a pulse stands, `w2` of R93 or the first write
of R121; two events later its enable-low write (R150, R165). -/
def Instr.enableHighAt (i : Instr) (idx : Nat) : Bool :=
  match i with
  | .construct _ _ _ =>
    decide ((3 ≤ idx ∧ idx < 27 ∧ (idx - 3) % 6 = 1) ∨ (27 ≤ idx ∧ idx < 47 ∧ (idx - 27) % 5 = 1) ∨
      (48 ≤ idx ∧ (idx - 48) % 5 = 1))
  | .setBacklight _ => false
  | .expanderWrite _ => false
  | .pulseEnable _ => decide (idx = 0)
  | .write4bits _ => decide (idx = 1)
  | _ => decide (idx % 5 = 1)

/-- The requests answered `Refused(BadConfig)` in a `READY` block (R211, R104(c), D6, D7). -/
def Instr.badConfig (c : Config) (r : Regs) : Instr → Bool
  | .construct _ cols rows =>
    rows == 0 || (c.arithOverflow == .refuse && decide (0xFF < 0x40 + cols.toNat))
  | .setCursorPosition col row =>
    c.arithOverflow == .refuse &&
      decide (0xFF < col.toNat + (r.rowOff.get (min row.toNat (min (r.rows.toNat - 1) 3))).toNat)
  | _ => false

/-! ### Illegal words (R99) -/

/-- The host words R99 names as illegal. -/
def IllegalHostWord (w : BitVec 32) : Prop :=
  let op := (w.extractLsb' 28 4).toNat
  let x := w.extractLsb' 16 8
  let y := w.extractLsb' 8 8
  let z := w.extractLsb' 0 8
  op = 0x0 ∨ 0xC ≤ op ∨ w.extractLsb' 24 4 ≠ 0 ∨
  (op = 0x1 ∧ w.getLsbD 23 = true) ∨
  ((op = 0x2 ∨ op = 0x3) ∧ (x ≠ 0 ∨ y ≠ 0 ∨ z ≠ 0)) ∨
  ((op = 0x4 ∨ op = 0xA) ∧ x ≠ 0) ∨
  ((op = 0x5 ∨ op = 0xB) ∧ (x ≠ 0 ∨ y ≠ 0)) ∨
  ((op = 0x6 ∨ op = 0x7 ∨ op = 0x8 ∨ op = 0x9) ∧ (x ≠ 0 ∨ y ≠ 0 ∨ w.extractLsb' 1 7 ≠ 0))

/-- The transport words R99 names as illegal. -/
def IllegalTransportWord (w : BitVec 12) : Prop :=
  let top := (w.extractLsb' 10 2).toNat
  let role := (w.extractLsb' 8 2).toNat
  role = 2 ∨ role = 3 ∨ (top ≠ 3 ∧ role ≠ 0)

/-! ### The invariant -/

/-- The registers of a constructed instance: the geometry of R23, `ROWS >= 1` (D7), `CUR_ROW <= ROWS` (R30),
direction Left (R28), and with `ARITH_OVERFLOW = refuse` a geometry whose sum does not overflow (R104). -/
abbrev Constructed (c : Config) (r : Regs) : Prop :=
  r.rowOff = ⟨0x00, 0x40, r.cols, 0x40 + r.cols⟩ ∧ 1 ≤ r.rows.toNat ∧ r.curRow.toNat ≤ r.rows.toNat ∧
    r.ctl.direction = .left ∧ (c.arithOverflow = .refuse → 0x40 + r.cols.toNat ≤ 0xFF)

/-- What `SEQ` may hold: nothing, or a well-formed operation at one of its events, on constructed registers,
and in `PHASE = READY` unless it is `CONSTRUCT` (R31, R32). -/
abbrev SeqLegal (s : State) : Prop :=
  match s.seq with
  | .idle => True
  | .running op idx =>
    op.wf = true ∧ idx < op.eventCount ∧ Constructed s.cfg s.regs ∧
      (op.isConstruct = false → s.phase = .ready)

/-- The invariant of the block. -/
abbrev Inv (s : State) : Prop :=
  (s.phase ≠ .unconstructed → Constructed s.cfg s.regs) ∧ SeqLegal s

/-! ### Relabelling of error values -/

/-- An answer with its error value relabelled. -/
def mapAnswer (f : Err → Err) : Answer → Answer
  | .ok => .ok
  | .err e => .err (f e)

/-- A result with its error value relabelled. -/
def mapResult (f : Err → Err) : Result → Result
  | .ok => .ok
  | .err e => .err (f e)
  | .refused r => .refused r

/-- A state with every error value in it relabelled. -/
def mapErrors (f : Err → Err) (s : State) : State :=
  { s with
    result := mapResult f s.result
    env := { s.env with
      sink := s.env.sink.map (mapAnswer f)
      trace := s.env.trace.map (fun e => ⟨e.event, mapAnswer f e.answer⟩)
      results := s.env.results.map (mapResult f) } }

end Sys2Proof
end

