-- ==== Sys2Proof/Certificates/Slice0/Obligations.lean ====
section
/-! DEFINITION. The statements for the provers. Each says which rule of spec/ it formalises. `run n s` is `n`
steps of the machine; `carryOut evs s` performs the events of a list against the byte sink up to the first
failure, whatever the sink answers; `Completes i s s' k t` says that `exec i s` answers `s'` and that within
`k` further steps the machine is in `t`. -/

open Sys2Proof Sys2Proof.Machine

/-! ### Encodings -/

/-- R94 to R98, R84: the decoder gives back every well-formed request from its words, with every operand at
every value; `COMMAND(b)` shares the word of `SEND(b, Command)` and reads back as that (R111, R124). -/
def Obligations.DecodeOfEncode : Prop :=
  ∀ i : Instr, i.wf = true → decode (encode i).1 (encode i).2 = .ok i.canonical

/-- R94 to R99: whatever the decoder accepts is a well-formed request, and the word and payload are the
ones the encoder writes for it: no word has a second spelling and no bit of a word is ignored. -/
def Obligations.EncodeOfDecode : Prop :=
  ∀ (w : PortWord) (payload : List Byte) (i : Instr),
    decode w payload = .ok i → i.wf = true ∧ encode i = (w, payload)

/-- R99: exactly the words the rule lists are illegal. An illegal word at the port of the idle block, in any
phase, is answered `Refused(IllegalRequest)`: no event, no change but `RESULT` (and the word and its payload
are taken from the ports, log 8; that a byte of the model's command-byte port that is no command is such an
illegal word is log 11, not R99). Every other word decodes. -/
def Obligations.IllegalWordsAreRefused : Prop :=
  (∀ (w : BitVec 32) (payload : List Byte), payload.length = payloadLength (.host w) →
    (IllegalHostWord w ↔ ∀ i, decode (.host w) payload ≠ .ok i)) ∧
  (∀ w : BitVec 12, IllegalTransportWord w ↔ ∀ i, decode (.transport w) [] ≠ .ok i) ∧
  (∀ (s : State) (w : PortWord) (rest : List PortWord) (p q : List Byte), Idle s →
    s.env.requests = w :: rest → s.env.payload = p ++ q → p.length = payloadLength w →
    (∀ i, decode w p ≠ .ok i) →
    step s = .next { s with
      result := .refused .illegalRequest
      env := { s.env with
        requests := rest, payload := q
        results := s.env.results ++ [.refused .illegalRequest] } })

/-- Words written out from the layouts of R94, R95, R98 and R84 decode to the requests they stand for. -/
def Obligations.SpecWordsDecode : Prop :=
  decode (.host 0b00010000001001110001000000000010#32) [] = .ok (.construct 0x27 16 2) ∧
  decode (.host 0b01000000000000000000010100000001#32) [] = .ok (.setCursorPosition 5 1) ∧
  decode (.host 0b10010000000000000000000000000001#32) [] = .ok (.setBacklight .on) ∧
  decode (.host 0b10100000000000000000000000000010#32) [0x41, 0x0A] = .ok (.print [0x41, 0x0A]) ∧
  decode (.transport 0b110110100101#12) [] = .ok (.send 0xA5 .registerSelect) ∧
  decode (.commandByte 0b00101000#8) [] = .ok (.cmdFunctionSet .four .two .dots5x8) ∧
  decode (.commandByte 0b11000101#8) [] = .ok (.cmdSetDdram 0x45)

/-- R98, R214: the host request port cannot express a transport primitive (nor the pseudo-operation, nor a bare
controller command); whatever a host word decodes to is one of the eleven host operations. -/
def Obligations.HostWordsAreHostOperations : Prop :=
  ∀ (w : BitVec 32) (payload : List Byte) (i : Instr), decode (.host w) payload = .ok i → i.isHost = true

/-- R84, R88, R90, R91: with the constants of R10, the command bytes the operations assemble are the patterns
of the opcode table: `CLEAR`'s, `HOME`'s, `INIT`'s function-set and entry-mode, display-control with the live
flags, set-CGRAM of a location's slot, and set-DDRAM with the low seven bits of the address. -/
def Obligations.AssembledCommandsMatchTheTable : Prop :=
  ∀ (c : Config) (r : Regs), c.SpecConstants →
    PortWord.commandByte c.opClear = encodeWord .cmdClear ∧
    PortWord.commandByte c.opHome = encodeWord .cmdHome ∧
    PortWord.commandByte (fsFull c) = encodeWord (.cmdFunctionSet .four .two .dots5x8) ∧
    PortWord.commandByte (fs8BitNibble c) = encodeWord (.cmdFunctionSet .eight .one .dots5x8) ∧
    PortWord.commandByte (fs4BitNibble c) = encodeWord (.cmdFunctionSet .four .one .dots5x8) ∧
    PortWord.commandByte (entryLtr c) = encodeWord (.cmdEntryMode .left .off) ∧
    PortWord.commandByte (dispctlByte c r) =
      encodeWord (.cmdDisplayControl r.ctl.display r.ctl.cursor r.ctl.blink) ∧
    (∀ location : Byte, PortWord.commandByte (cgramByte c location) =
      encodeWord (.cmdSetCgram (location.extractLsb' 0 3 ++ 0#3))) ∧
    (∀ col row : Byte, PortWord.commandByte (ddramByte c r col row) =
      encodeWord (.cmdSetDdram ((col + r.rowOff.get (min row.toNat (min (r.rows.toNat - 1) 3))).setWidth 7)))

/-! ### The step -/

/-- R32, R94, R97: when the block is idle and the words at its ports decode to `i`, the step takes the word and
exactly its payload from the ports and is `exec` of `i` on the state then. -/
def Obligations.StepRunsTheDecodedRequest : Prop :=
  ∀ (s : State) (w : PortWord) (rest : List PortWord) (p q : List Byte) (i : Instr), Idle s →
    s.env.requests = w :: rest → s.env.payload = p ++ q → p.length = payloadLength w →
    decode w p = .ok i →
    step s = exec i { s with env := { s.env with requests := rest, payload := q } }

/-- R32, R245: while an operation is in progress the step is one step of that operation; the request port and the
payload stream are not touched. -/
def Obligations.BusyStepRunsTheOperationOnly : Prop :=
  ∀ (s : State) (op : Instr) (idx : Nat), s.seq = .running op idx → s.env.resetLine = false →
    step s = exec op s ∧
    ∀ t, step s = .next t → t.env.requests = s.env.requests ∧ t.env.payload = s.env.payload

/-- R32, R36, R97 (the waiting is the model's reading, logs 7 and 9): with no request at the port, or with fewer
payload bytes than the word says, the idle block waits and nothing changes; a request offered while another
is in progress is not accepted (log 24). -/
def Obligations.BlockWaits : Prop :=
  (∀ s, Idle s → s.env.requests = [] → step s = .next s) ∧
  (∀ s w rest, Idle s → s.env.requests = w :: rest → s.env.payload.length < payloadLength w →
    step s = .next s) ∧
  (∀ s i op idx, s.seq = .running op idx → op ≠ i → exec i s = .next s)

/-- R230: hardware reset, at any moment, also during an operation, puts the block in `PHASE = UNCONSTRUCTED`,
`SEQ = IDLE` with no event and no result; the reset state is such a state, and nothing but an accepted
`CONSTRUCT` makes an event happen from there. -/
def Obligations.HardwareResetAbandons : Prop :=
  (∀ s, s.env.resetLine = true → ∃ t, step s = .next t ∧ t.phase = .unconstructed ∧ t.seq = .idle ∧
    t.env.trace = s.env.trace ∧ t.env.results = s.env.results) ∧
  State.reset.phase = .unconstructed ∧ State.reset.seq = .idle ∧ State.reset.env.trace = [] ∧
  State.reset.env.results = [] ∧
  (∀ s t, s.phase = .unconstructed → s.seq = .idle → step s = .next t →
    t.env.trace = s.env.trace ∧ t.phase = .unconstructed ∧
      (t.seq = .idle ∨ ∃ a c r, t.seq = .running (.construct a c r) 0))

/-- R9, R62, R63: every step adds at most one event and at most one result to the records and changes nothing
of what is recorded; no event happens while the block is idle; the machine never stops (R201, R212). (Acceptance is
a step of its own, log 1.) -/
def Obligations.OneEventPerStep : Prop :=
  ∀ s, ∃ t es rs, step s = .next t ∧ t.env.trace = s.env.trace ++ es ∧ es.length ≤ 1 ∧
    t.env.results = s.env.results ++ rs ∧ rs.length ≤ 1 ∧
    (s.seq = .idle → es = []) ∧ (rs ≠ [] → t.seq = .idle ∧ rs = [t.result])

/-- R32: `SEQ` advances by one at the completion of each event, whatever the operation; it becomes `IDLE` after
the last event, or at once when a bus write fails, except in `CREATE_CHAR` with the swallow policy, where a
failed write of a data byte leads to the first event of the next byte (log 13). -/
def Obligations.SequencerAdvances : Prop :=
  ∀ (s t : State) (op : Instr) (idx : Nat), s.seq = .running op idx → op.wf = true →
    idx < op.eventCount → s.env.resetLine = false → step s = .next t →
    ∃ ev, t.env.trace = s.env.trace ++
        [⟨ev, match ev with | .w _ _ => s.env.nextAnswer | .dms _ => .ok | .dus _ => .ok⟩] ∧
      match errorOf ev s with
      | none => t.seq = if idx + 1 < op.eventCount then .running op (idx + 1) else .idle
      | some _ =>
        match op with
        | .createChar _ _ =>
          if s.cfg.createCharErrors = .swallow ∧ 10 ≤ idx then
            t.seq = if 10 * (idx / 10 + 1) < 90 then .running op (10 * (idx / 10 + 1)) else .idle
          else t.seq = .idle
        | _ => t.seq = .idle

/-! ### Refusals and the error -/

/-- R211: an illegal word is refused with `IllegalRequest` in every phase; any request but `CONSTRUCT` outside
`READY` with `NotReady`, also one that `BadConfig` would apply to; then `CONSTRUCT` with `rows = 0` and, with
`ARITH_OVERFLOW = refuse`, an overflowing sum with `BadConfig`. No event, no register changes but `RESULT`. The
model's choices in it: an illegal word is taken from its port with its payload (log 8), a command byte that is
no command counts as an illegal word (log 11), the internal port checks the phase too (log 10). -/
def Obligations.RefusalsInOrder : Prop :=
  (∀ (s : State) (w : PortWord) (rest : List PortWord), Idle s → s.env.requests = w :: rest →
    payloadLength w ≤ s.env.payload.length →
    (∀ i, decode w (s.env.payload.take (payloadLength w)) ≠ .ok i) →
    step s = .next (ended (.refused .illegalRequest) s.phase { s with env := { s.env with
      requests := rest, payload := s.env.payload.drop (payloadLength w) } })) ∧
  (∀ (s : State) (i : Instr), s.seq = .idle → i.isConstruct = false → s.phase ≠ .ready →
    exec i s = .next (ended (.refused .notReady) s.phase s)) ∧
  (∀ (s : State) (i : Instr), s.seq = .idle → (i.isConstruct = true ∨ s.phase = .ready) →
    i.badConfig s.cfg s.regs = true →
    exec i s = .next (ended (.refused .badConfig) s.phase s))

/-- R203, R204, R205: when a bus write fails and the error is not one that swallow mode catches, that write is
the last event; the block is idle, hands `Err(e)` with the sink's own `e` to the host, keeps every register as
it is, and changes `PHASE` for `CONSTRUCT` only, to `FAILED`. -/
def Obligations.FailedWriteAborts : Prop :=
  ∀ (s t : State) (op : Instr) (idx : Nat) (a : DevAddr) (v : Byte) (e : Err),
    s.seq = .running op idx → s.env.resetLine = false → step s = .next t →
    t.env.trace = s.env.trace ++ [⟨.w a v, .err e⟩] →
    ¬ ((∃ l b, op = .createChar l b) ∧ s.cfg.createCharErrors = .swallow ∧ 10 ≤ idx) →
    s.env.nextAnswer = .err e ∧
    t = { s with
      phase := if op.isConstruct then .failed else s.phase
      seq := .idle
      result := .err e
      env := { s.env with
        sink := s.env.sink.tail
        writes := s.env.writes + 1
        trace := s.env.trace ++ [⟨.w a v, .err e⟩]
        results := s.env.results ++ [.err e] } }

/-- R200: the block never inspects the error value: with every error value of a state relabelled by any
function, the step does the same and ends in the relabelled state. -/
def Obligations.ErrorValueIsNeverInspected : Prop :=
  ∀ (f : Err → Err) (s t : State), s.env.sink ≠ [] → step s = .next t →
    step (mapErrors f s) = .next (mapErrors f t)

/-! ### Transport -/

/-- R120: `EXPANDER_WRITE(data)` is the one write `data | bl()` to `ADDR`, and changes nothing else, whatever the
sink answers. -/
def Obligations.ExpanderWriteIsOneWrite : Prop :=
  ∀ (s : State) (data : Byte), ReadyIdle s →
    Completes (.expanderWrite data) s { s with seq := .running (.expanderWrite data) 0 } 1
      (concluded s.phase s.phase (carryOut [.w s.regs.addr (data ||| bl s.cfg s.regs)]
        { s with seq := .running (.expanderWrite data) 0 }))

/-- R121: `PULSE_ENABLE(data)`: enable high, 1 µs, enable low, 1 µs; an error stops it where it is. -/
def Obligations.PulseEnableStrobes : Prop :=
  ∀ (s : State) (data : Byte), ReadyIdle s →
    Completes (.pulseEnable data) s { s with seq := .running (.pulseEnable data) 0 } 4
      (concluded s.phase s.phase (carryOut
        [.w s.regs.addr ((data ||| s.cfg.enBit) ||| bl s.cfg s.regs), .dus s.cfg.tEnUs,
         .w s.regs.addr ((data &&& ~~~s.cfg.enBit) ||| bl s.cfg s.regs), .dus s.cfg.tEnUs]
        { s with seq := .running (.pulseEnable data) 0 }))

/-- R122, R93: `WRITE4BITS(value)` presents the value and strobes it, unmasked: the three wire bytes of R93 with
the two delays. -/
def Obligations.Write4bitsTransmitsANibble : Prop :=
  ∀ (s : State) (value : Byte), ReadyIdle s →
    Completes (.write4bits value) s { s with seq := .running (.write4bits value) 0 } 5
      (concluded s.phase s.phase (carryOut (nibbleEvents s.cfg s.regs value)
        { s with seq := .running (.write4bits value) 0 }))

/-- R123, R92: `SEND(data, role)`: the high nibble, then the low nibble moved up, each with the role tag. -/
def Obligations.SendTransmitsHighNibbleFirst : Prop :=
  ∀ (s : State) (data : Byte) (role : Role), ReadyIdle s →
    Completes (.send data role) s { s with seq := .running (.send data role) 0 } 10
      (concluded s.phase s.phase (carryOut (byteEvents s.cfg s.regs data role)
        { s with seq := .running (.send data role) 0 }))

/-- R124: `COMMAND(b)` has the events and errors of `SEND(b, Command)`. -/
def Obligations.CommandIsSendWithCommandRole : Prop :=
  ∀ (s : State) (b : Byte), ReadyIdle s →
    Completes (.command b) s { s with seq := .running (.command b) 0 } 10
      (concluded s.phase s.phase (carryOut (byteEvents s.cfg s.regs b .command)
        { s with seq := .running (.command b) 0 }))

/-- The model's reading of the CMD rows (log 11), over R84 and R124: an emitted controller command is its byte,
as the table's pattern gives it, sent with role Command. -/
def Obligations.EmittedCommandsAreSent : Prop :=
  ∀ (s : State) (i : Instr) (b : Byte), ReadyIdle s → encodeWord i = .commandByte b →
    Completes i s { s with seq := .running i 0 } 10
      (concluded s.phase s.phase (carryOut (byteEvents s.cfg s.regs b .command)
        { s with seq := .running i 0 }))

/-! ### Construction -/

/-- R140, R141, R149, R205: `CONSTRUCT`, accepted in every phase, loads every register before its first event and
runs the seven steps of `INIT` in order; it ends `READY` with `Ok`, or at the first failed write `FAILED` with
that error, with no further event and the registers as loaded. -/
def Obligations.ConstructRunsInit : Prop :=
  ∀ (s : State) (addr : DevAddr) (cols rows : Byte), Idle s →
    Instr.badConfig s.cfg s.regs (.construct addr cols rows) = false →
    let r : Regs := { addr := addr, cols := cols, rows := rows, rowOff := ⟨0x00, 0x40, cols, 0x40 + cols⟩,
                      ctl := ⟨.off, .off, .off, .on, .left⟩, curRow := 0 }
    let s1 : State := { s with regs := r, seq := .running (.construct addr cols rows) 0 }
    let c := s.cfg
    let fs8 := nibbleEvents c r (c.opFuncset ||| c.f8Bit) ++ [.dms c.tFsMs]
    Completes (.construct addr cols rows) s s1 58
      (concluded .ready .failed (carryOut
        ([.dms c.tPowerupMs] ++
         [.w addr (c.blBit ||| c.blBit), .dms c.tBlMs] ++
         (fs8 ++ fs8 ++ fs8) ++
         (nibbleEvents c r (c.opFuncset ||| c.f4Bit) ++ [.dms c.tFsMs]) ++
         byteEvents c r (c.opFuncset ||| c.f4Bit ||| c.f2Line ||| c.f5x8) .command ++
         (byteEvents c r c.opClear .command ++ [.dms c.tClearMs]) ++
         byteEvents c r (c.opEntry ||| c.fEntryLeft ||| c.fShiftOff) .command) s1))

/-- R150, a rule the spec marks as its own inference ("[derived: from rule R141 to rule R148 and
40_transport.md rule R120 to rule R124]"): the 58 events of `CONSTRUCT` with the default constants, row by row of the rule's table (`initTable`
writes its rows out); if the write of a row fails the trace is the rows up to it. -/
def Obligations.ConstructFollowsTheInitTable : Prop :=
  ∀ (s : State) (addr : DevAddr) (cols rows : Byte), Idle s → s.cfg.SpecConstants →
    Instr.badConfig s.cfg s.regs (.construct addr cols rows) = false →
    ∃ s1 : State, s1.env = s.env ∧ s1.seq = .running (.construct addr cols rows) 0 ∧
    Completes (.construct addr cols rows) s s1 58
      (concluded .ready .failed (carryOut (initTable addr) s1))

/-! ### Display commands and data -/

/-- R160: `CLEAR()`: the command 0x01's byte, then the clear delay, which is not requested when a write fails;
no register is written. -/
def Obligations.ClearSendsAndWaits : Prop :=
  ∀ s : State, ReadyIdle s →
    Completes .clear s { s with seq := .running .clear 0 } 11
      (concluded s.phase s.phase (carryOut
        (byteEvents s.cfg s.regs s.cfg.opClear .command ++ [.dms s.cfg.tClearMs])
        { s with seq := .running .clear 0 }))

/-- R161: `HOME()`: the command 0x02's byte, then the same delay; no register is written. -/
def Obligations.HomeSendsAndWaits : Prop :=
  ∀ s : State, ReadyIdle s →
    Completes .home s { s with seq := .running .home 0 } 11
      (concluded s.phase s.phase (carryOut
        (byteEvents s.cfg s.regs s.cfg.opHome .command ++ [.dms s.cfg.tClearMs])
        { s with seq := .running .home 0 }))

/-- R162, R90, R24: `SET_CURSOR_POSITION(col, row)` sends `0x80 | ((col + ROW_OFF[min(row, ROWS - 1, 3)]) mod 256)`
for every `col` and `row` (refused only for an overflowing sum under `ARITH_OVERFLOW = refuse`); no register is
written, `CUR_ROW` not either. -/
def Obligations.SetCursorPositionAddressesTheRow : Prop :=
  ∀ (s : State) (col row : Byte), ReadyIdle s →
    Instr.badConfig s.cfg s.regs (.setCursorPosition col row) = false →
    Completes (.setCursorPosition col row) s { s with seq := .running (.setCursorPosition col row) 0 } 10
      (concluded s.phase s.phase (carryOut
        (byteEvents s.cfg s.regs (s.cfg.opDdram |||
          (col + s.regs.rowOff.get (min row.toNat (min (s.regs.rows.toNat - 1) 3)))) .command)
        { s with seq := .running (.setCursorPosition col row) 0 }))

/-- R163, default policy: `CREATE_CHAR` sends the set-CGRAM command of the location's low three bits and then the
eight bitmap bytes, `bitmap[0]` first; the first error aborts the rest. -/
def Obligations.CreateCharPropagates : Prop :=
  ∀ (s : State) (location b0 b1 b2 b3 b4 b5 b6 b7 : Byte), ReadyIdle s →
    s.cfg.createCharErrors = .propagate →
    let bitmap := [b0, b1, b2, b3, b4, b5, b6, b7]
    Completes (.createChar location bitmap) s { s with seq := .running (.createChar location bitmap) 0 } 90
      (concluded s.phase s.phase (carryOut
        (byteEvents s.cfg s.regs (s.cfg.opCgram ||| ((location &&& 0x07) <<< s.cfg.cgramShift)) .command ++
          bitmap.flatMap (fun b => byteEvents s.cfg s.regs b .registerSelect))
        { s with seq := .running (.createChar location bitmap) 0 }))

/-- R163, swallow policy: an error of the set-CGRAM command propagates; an error of a data byte ends that byte and
is discarded, the next byte starts with a fresh high nibble, and the operation returns `Ok`. -/
def Obligations.CreateCharSwallows : Prop :=
  ∀ (s : State) (location b0 b1 b2 b3 b4 b5 b6 b7 : Byte), ReadyIdle s →
    s.cfg.createCharErrors = .swallow →
    let bitmap := [b0, b1, b2, b3, b4, b5, b6, b7]
    Completes (.createChar location bitmap) s { s with seq := .running (.createChar location bitmap) 0 } 90
      (concluded s.phase s.phase (andThen
        (carryOut (byteEvents s.cfg s.regs (s.cfg.opCgram ||| ((location &&& 0x07) <<< s.cfg.cgramShift)) .command)
          { s with seq := .running (.createChar location bitmap) 0 })
        (fun t => (carryOutSwallowing bitmap t, none))))

/-- R164: `WRITE(byte)` sends one data byte, every value alike, 0x0A too. -/
def Obligations.WriteSendsOneDataByte : Prop :=
  ∀ (s : State) (b : Byte), ReadyIdle s →
    Completes (.write b) s { s with seq := .running (.write b) 0 } 10
      (concluded s.phase s.phase (carryOut (byteEvents s.cfg s.regs b .registerSelect)
        { s with seq := .running (.write b) 0 }))

/-- R165, R166: `PRINT(text)`, whatever the sink answers, does what the rule's loop does (`carryOutText`): a newline
byte advances `CUR_ROW` and addresses column 0 of it, every other byte goes out as data, the first error ends
it with `Err(e)` and leaves a `CUR_ROW` update already made. The empty text ends at once with `Ok` and no event. -/
def Obligations.PrintFollowsTheText : Prop :=
  ∀ (s : State) (text : List Byte), ReadyIdle s →
    ∃ s1 n, exec (.print text) s = .next s1 ∧ n ≤ 10 * text.length ∧
      run n s1 = .next (concluded s.phase s.phase (carryOutText text s))

/-- R166, R30, R246: on a constructed instance a newline takes `CUR_ROW` to `min(CUR_ROW + 1, ROWS)` and addresses
`min(CUR_ROW, ROWS - 1, 3)` of the new `CUR_ROW`: row 0 is addressed only when `ROWS = 1`, and at `CUR_ROW = ROWS`
the last row is addressed again and again. -/
def Obligations.NewlineClampsToTheLastRow : Prop :=
  ∀ (c : Config) (r : Regs), Constructed c r →
    r.newline.curRow.toNat = min (r.curRow.toNat + 1) r.rows.toNat ∧
    r.newline = { r with curRow := r.newline.curRow } ∧
    (effectiveRow r.newline r.newline.curRow = 0 ↔ r.rows.toNat = 1) ∧
    (r.curRow = r.rows → r.newline = r ∧ effectiveRow r.newline r.newline.curRow = min (r.rows.toNat - 1) 3) ∧
    (r.rows.toNat ≤ 4 → ddramByte c r.newline 0 r.newline.curRow =
      c.opDdram ||| r.rowOff.get (min (r.curRow.toNat + 1) (r.rows.toNat - 1)))

/-! ### Control flags -/

/-- R190, R191, R192: each of the three replaces its one field of `CTL` before the first event, sends the
display-control command with the new aggregate, and keeps the field when a write fails. -/
def Obligations.FlagOperationsSendDisplayControl : Prop :=
  ∀ (s : State) (f : Flag), ReadyIdle s →
    (let s1 : State := { s with regs := { s.regs with ctl := { s.regs.ctl with display := f } },
                                seq := .running (.setDisplay f) 0 }
     Completes (.setDisplay f) s s1 10 (concluded s.phase s.phase (carryOut
       (byteEvents s.cfg s1.regs (s.cfg.opDispctl ||| s1.regs.ctl.value s.cfg) .command) s1))) ∧
    (let s1 : State := { s with regs := { s.regs with ctl := { s.regs.ctl with cursor := f } },
                                seq := .running (.setCursor f) 0 }
     Completes (.setCursor f) s s1 10 (concluded s.phase s.phase (carryOut
       (byteEvents s.cfg s1.regs (s.cfg.opDispctl ||| s1.regs.ctl.value s.cfg) .command) s1))) ∧
    (let s1 : State := { s with regs := { s.regs with ctl := { s.regs.ctl with blink := f } },
                                seq := .running (.setBlink f) 0 }
     Completes (.setBlink f) s s1 10 (concluded s.phase s.phase (carryOut
       (byteEvents s.cfg s1.regs (s.cfg.opDispctl ||| s1.regs.ctl.value s.cfg) .command) s1)))

/-- R193: `SET_BACKLIGHT(flag)` replaces `CTL.backlight` before its one event, the write of the new `bl()` alone, and
keeps the field when the write fails. -/
def Obligations.SetBacklightWritesTheBacklightBit : Prop :=
  ∀ (s : State) (f : Flag), ReadyIdle s →
    let s1 : State := { s with regs := { s.regs with ctl := { s.regs.ctl with backlight := f } },
                               seq := .running (.setBacklight f) 0 }
    Completes (.setBacklight f) s s1 1 (concluded s.phase s.phase (carryOut
      [.w s.regs.addr (match f with | .on => s.cfg.blBit | .off => 0)] s1))

/-- R27, R28, R89, R194: with the constants of R10, `CTL.value()` is bit 0 blink, bit 1 cursor, bit 2 display, bit 3
backlight and nothing else; it does not depend on the direction; replacing the backlight changes it by exactly
0x08; and `DISPCTL()` is 0x08 to 0x0F and does not depend on the backlight. -/
def Obligations.AggregateByte : Prop :=
  ∀ (c : Config) (r : Regs), c.SpecConstants →
    (r.ctl.value c =
      0#4 ++ r.ctl.backlight.bit ++ r.ctl.display.bit ++ r.ctl.cursor.bit ++ r.ctl.blink.bit) ∧
    (∀ d, Ctl.value c { r.ctl with direction := d } = r.ctl.value c) ∧
    (Ctl.value c { r.ctl with backlight := .on } ^^^ Ctl.value c { r.ctl with backlight := .off } = 0x08) ∧
    (∀ f, dispctlByte c (r.setBacklight f) = dispctlByte c r) ∧
    0x08 ≤ (dispctlByte c r).toNat ∧ (dispctlByte c r).toNat ≤ 0x0F

/-! ### Rules about every bus write -/

/-- R29, R52, R248: every bus write of every operation goes to `ADDR` and carries the current backlight bit. -/
def Obligations.EveryWriteCarriesAddressAndBacklight : Prop :=
  ∀ (s t : State) (a : DevAddr) (v : Byte) (x : Answer), step s = .next t →
    t.env.trace = s.env.trace ++ [⟨.w a v, x⟩] →
    a = s.regs.addr ∧ v ||| bl s.cfg s.regs = v

/-- R101: with the constants of R10 no write of a host operation sets the read/write bit, whatever its operands and
payload. -/
def Obligations.HostOperationsNeverRead : Prop :=
  ∀ (s t : State) (op : Instr) (idx : Nat) (a : DevAddr) (v : Byte) (x : Answer),
    s.cfg.SpecConstants → s.seq = .running op idx → op.isHost = true → s.env.resetLine = false →
    step s = .next t → t.env.trace = s.env.trace ++ [⟨.w a v, x⟩] → v.getLsbD 1 = false

/-- R250, R215: the delays any step requests are of the five amounts of the configuration, and they cannot fail. -/
def Obligations.DelaysAreTheConfiguredOnes : Prop :=
  ∀ (s t : State) (e : Entry), step s = .next t → t.env.trace = s.env.trace ++ [e] →
    (∀ n, e.event = .dms n → e.answer = .ok ∧
      (n = s.cfg.tPowerupMs ∨ n = s.cfg.tBlMs ∨ n = s.cfg.tFsMs ∨ n = s.cfg.tClearMs)) ∧
    (∀ n, e.event = .dus n → e.answer = .ok ∧ n = s.cfg.tEnUs)

/-- R20, R28, R30, R37, R38: who writes what. A step changes `ADDR`, the geometry and the direction only by
accepting a `CONSTRUCT`; `CUR_ROW` only then or in `PRINT`; a flag of `CTL` only then or by accepting the `SET_*`
operation of that flag; the configuration never. (Hardware reset apart.) -/
def Obligations.RegistersHaveTheirWriters : Prop :=
  ∀ (s t : State), s.env.resetLine = false → step s = .next t →
    t.cfg = s.cfg ∧
    ((∃ a c r, t.seq = .running (.construct a c r) 0 ∧ s.seq = .idle) ∨
     (t.regs.addr = s.regs.addr ∧ t.regs.cols = s.regs.cols ∧ t.regs.rows = s.regs.rows ∧
      t.regs.rowOff = s.regs.rowOff ∧ t.regs.ctl.direction = s.regs.ctl.direction ∧
      (t.regs.curRow = s.regs.curRow ∨ ∃ text idx, t.seq = .running (.print text) idx) ∧
      (t.regs.ctl.display = s.regs.ctl.display ∨ ∃ f, s.seq = .idle ∧ t.seq = .running (.setDisplay f) 0) ∧
      (t.regs.ctl.cursor = s.regs.ctl.cursor ∨ ∃ f, s.seq = .idle ∧ t.seq = .running (.setCursor f) 0) ∧
      (t.regs.ctl.blink = s.regs.ctl.blink ∨ ∃ f, s.seq = .idle ∧ t.seq = .running (.setBlink f) 0) ∧
      (t.regs.ctl.backlight = s.regs.ctl.backlight ∨
        ∃ f, s.seq = .idle ∧ t.seq = .running (.setBacklight f) 0)))

/-- R31, R204, R205: `PHASE` changes only at the end of a `CONSTRUCT` in progress, to `READY` with `Ok` or to `FAILED`
with `Err(e)`. (Hardware reset apart.) -/
def Obligations.PhaseChangesOnlyByConstruct : Prop :=
  ∀ (s t : State), s.env.resetLine = false → step s = .next t →
    t.phase = s.phase ∨
    (∃ a c r idx, s.seq = .running (.construct a c r) idx ∧ t.seq = .idle ∧
      ((t.phase = .ready ∧ t.result = .ok) ∨ (t.phase = .failed ∧ ∃ e, t.result = .err e)))

/-! ### What reaches the controller -/

/-- R55, R53, R81, R92, R243: with the constants of R10, the ten events of one logical byte, all accepted, make the
controller latch exactly its high nibble and then its low nibble, with register-select set for data only, and
leave the enable line low. Where the enable line stood high before, the first write is one more falling edge,
with the high nibble. (The lines `before` and the free values `u` are any, log 18.) -/
def Obligations.OneByteIsTwoLatches : Prop :=
  ∀ (c : Config) (r : Regs) (data : Byte) (role : Role) (u : Nat → Byte) (k : Nat) (before : Byte),
    c.SpecConstants →
    let entries := (byteEvents c r data role).map (fun ev => (⟨ev, .ok⟩ : Entry))
    latchesFrom u r.addr k before entries =
      (if enableLine before then (latchesOfByte data role).take 1 else []) ++ latchesOfByte data role ∧
    enableLine (linesFrom u r.addr k before entries) = false

/-- R165, R166, R57, R243: with the constants of R10 and a sink that accepts, `PRINT` of a text delivers to the
controller, in text order, each byte as data, and each newline as the set-DDRAM command of the row `CUR_ROW`
has come to, and nothing else, from lines on which enable is low. Where enable stands high before `PRINT`, its
first write latches the first nibble once more. (The lines before, computed from the trace with the free
values `u` and `now`, are any, log 18.) -/
def Obligations.PrintReachesTheController : Prop :=
  ∀ (s : State) (text : List Byte), ReadyIdle s → s.cfg.SpecConstants →
    BusAccepts (6 * text.length) s →
    ∃ s1 n t es, exec (.print text) s = .next s1 ∧ run n s1 = .next t ∧ t.result = .ok ∧ t.seq = .idle ∧
      t.env.trace = s.env.trace ++ es ∧
      ∀ (u : Nat → Byte) (now : Byte),
        let before := linesFrom u s.regs.addr 0 now s.env.trace
        let delivered := (text.foldl (fun (p : Regs × List Latch) b =>
          if b = 0x0A then
            (p.1.newline, p.2 ++ latchesOfByte (ddramByte s.cfg p.1.newline 0 p.1.newline.curRow) .command)
          else (p.1, p.2 ++ latchesOfByte b .registerSelect)) (s.regs, [])).2
        latchesFrom u s.regs.addr s.env.trace.length before es =
          (if enableLine before then delivered.take 1 else []) ++ delivered

/-- R243, R93: with the constants of R10. When the enable-low write of a pulse of any operation fails (the pulse
begins at an index of `enableHighAt`), the last byte the expander accepted is the enable-high byte, and if the
failed write did not reach the expander (the free lines after it are that byte, log 18) the enable line stays
high. The enable bit is set by a host operation at exactly those indices; so the first write of every host
operation that sends one (event 0, or event 1 of `CONSTRUCT`) has it clear. -/
def Obligations.EnableLeftHigh : Prop :=
  (∀ (s : State) (op : Instr) (idx : Nat) (e : Err) (rest : List Answer), s.cfg.SpecConstants →
    s.seq = .running op idx → op.wf = true → idx < op.eventCount → op.enableHighAt idx = true →
    s.env.resetLine = false → s.env.sink = .ok :: .err e :: rest →
    ∃ t v2 v3, run 3 s = .next t ∧
      t.env.trace = s.env.trace ++ [⟨.w s.regs.addr v2, .ok⟩, ⟨.dus s.cfg.tEnUs, .ok⟩,
        ⟨.w s.regs.addr v3, .err e⟩] ∧
      v2 = v3 ||| s.cfg.enBit ∧ enableLine v2 = true ∧ enableLine v3 = false ∧
      lastAccepted s.regs.addr t.env.trace = some v2 ∧
      (¬ ((∃ l b, op = .createChar l b) ∧ s.cfg.createCharErrors = .swallow ∧ 10 ≤ idx) →
        t.seq = .idle ∧ t.result = .err e) ∧
      (∀ (u : Nat → Byte) (now : Byte), u (s.env.trace.length + 2) = v2 →
        linesFrom u s.regs.addr 0 now t.env.trace = v2)) ∧
  (∀ (s t : State) (op : Instr) (idx : Nat) (a : DevAddr) (v : Byte) (x : Answer), s.cfg.SpecConstants →
    s.seq = .running op idx → op.isHost = true → s.env.resetLine = false → step s = .next t →
    t.env.trace = s.env.trace ++ [⟨.w a v, x⟩] →
    enableLine v = op.enableHighAt idx ∧
      (idx = (if op.isConstruct then 1 else 0) → enableLine v = false))

/-- R243, second half: with the constants of R10, where the enable line stands high, the next successful write of any
host operation (event 0, or event 1 of `CONSTRUCT`, at the address the operation uses) is a falling edge: the
controller latches exactly the nibble that byte presents, and the line is low. (The lines before are any that
have enable high, log 18.) -/
def Obligations.HeldEnableLatchesAtTheNextWrite : Prop :=
  ∀ (s : State) (i : Instr), Idle s → (i.isConstruct = true ∨ s.phase = .ready) → i.isHost = true →
    i.badConfig s.cfg s.regs = false → 0 < i.eventCount → s.cfg.SpecConstants → BusAccepts 1 s →
    ∃ s1 t v, exec i s = .next s1 ∧ run (if i.isConstruct then 2 else 1) s1 = .next t ∧
      let es : List Entry :=
        (if i.isConstruct then [⟨.dms s.cfg.tPowerupMs, .ok⟩] else []) ++ [⟨.w s1.regs.addr v, .ok⟩]
      t.env.trace = s.env.trace ++ es ∧ enableLine v = false ∧
      ∀ (u : Nat → Byte) (now : Byte),
        let before := linesFrom u s1.regs.addr 0 now s.env.trace
        enableLine before = true →
        latchesFrom u s1.regs.addr s.env.trace.length before es = [Latch.of v] ∧
        linesFrom u s1.regs.addr 0 now t.env.trace = v

/-- R249: with the constants of R10, the accepted write of `SET_BACKLIGHT` drives every line but the backlight low.
Where enable was low before, no edge occurs and the controller latches nothing; where it stood high (R243), it
latches the nibble 0000 with register-select clear. (The lines before are any, log 18.) -/
def Obligations.SetBacklightDrivesTheLinesLow : Prop :=
  ∀ (s : State) (f : Flag), ReadyIdle s → s.cfg.SpecConstants → BusAccepts 1 s →
    ∃ s1 t e, exec (.setBacklight f) s = .next s1 ∧ run 1 s1 = .next t ∧ t.result = .ok ∧
      t.env.trace = s.env.trace ++ [e] ∧
      ∀ (u : Nat → Byte) (now : Byte),
        let before := linesFrom u s.regs.addr 0 now s.env.trace
        latchesFrom u s.regs.addr s.env.trace.length before [e] =
          (if enableLine before then [⟨0#4, false⟩] else []) ∧
        linesFrom u s.regs.addr 0 now t.env.trace = (match f with | .on => 0x08 | .off => 0x00)

/-! ### Headlines -/

/-- R202, R251: every well-formed request that is not refused, offered to the idle block (in `READY`, or in any phase
for `CONSTRUCT`), completes when the sink accepts its writes: after exactly as many steps as the cost table
gives it events, of which exactly the table's number are bus writes, it hands `Ok` to the host. -/
def Obligations.EveryRequestCompletesAtItsCost : Prop :=
  ∀ (s : State) (i : Instr), i.wf = true → Idle s → (i.isConstruct = true ∨ s.phase = .ready) →
    i.badConfig s.cfg s.regs = false → BusAccepts i.writeCount s →
    ∃ s1 t es, exec i s = .next s1 ∧ run i.eventCount s1 = .next t ∧ t.seq = .idle ∧ t.phase = .ready ∧
      t.result = .ok ∧ t.env.results = s.env.results ++ [.ok] ∧
      t.env.trace = s.env.trace ++ es ∧ es.length = i.eventCount ∧
      (es.filter (fun e => isWrite e.event)).length = i.writeCount ∧ (∀ e ∈ es, e.answer = .ok)

/-- R32, R251: from every state of the invariant with an operation in progress, whatever the sink answers, the
operation hands exactly one result to the host and the block is idle within the events that are left. (Every write
and delay completes, log 16.) -/
def Obligations.EveryOperationEnds : Prop :=
  ∀ (s : State) (op : Instr) (idx : Nat), Inv s → s.seq = .running op idx → s.env.resetLine = false →
    ∃ n t, n ≤ op.eventCount - idx ∧ run n s = .next t ∧ t.seq = .idle ∧
      t.env.results = s.env.results ++ [t.result] ∧ ∀ r, t.result ≠ .refused r

/-- The invariant is kept by every step from every state that meets it: constructed registers outside
`UNCONSTRUCTED` (R23, D7, R28, R30) and a legal sequencer (R31, R32). -/
def Obligations.StepKeepsInv : Prop :=
  ∀ s t : State, Inv s → step s = .next t → Inv t

/-- The invariant holds at reset, for every configuration and whatever stands at the ports. -/
def Obligations.InvAtReset : Prop :=
  Inv State.reset ∧ ∀ (c : Config) (e : Env), Inv (State.resetWith c e)
end

