-- ==== Sys2Proof/Laws/Config.lean ====
section
/-! SUPPORT. The values of the constants under `SpecConstants` (00_scope.md R10), one lemma per field: cite them
instead of rewriting the whole record. -/

namespace Sys2Proof.Config

variable {c : Config} (h : c.SpecConstants)
include h

theorem SpecConstants.blBit_eq : c.blBit = 0x08 := by rw [h]; rfl
theorem SpecConstants.enBit_eq : c.enBit = 0x04 := by rw [h]; rfl
theorem SpecConstants.rwBit_eq : c.rwBit = 0x02 := by rw [h]; rfl
theorem SpecConstants.rsBit_eq : c.rsBit = 0x01 := by rw [h]; rfl
theorem SpecConstants.opClear_eq : c.opClear = 0x01 := by rw [h]; rfl
theorem SpecConstants.opHome_eq : c.opHome = 0x02 := by rw [h]; rfl
theorem SpecConstants.opEntry_eq : c.opEntry = 0x04 := by rw [h]; rfl
theorem SpecConstants.opDispctl_eq : c.opDispctl = 0x08 := by rw [h]; rfl
theorem SpecConstants.opFuncset_eq : c.opFuncset = 0x20 := by rw [h]; rfl
theorem SpecConstants.opCgram_eq : c.opCgram = 0x40 := by rw [h]; rfl
theorem SpecConstants.opDdram_eq : c.opDdram = 0x80 := by rw [h]; rfl
theorem SpecConstants.cgramShift_eq : c.cgramShift = 3 := by rw [h]; rfl
theorem SpecConstants.fDisplayOn_eq : c.fDisplayOn = 0x04 := by rw [h]; rfl
theorem SpecConstants.fCursorOn_eq : c.fCursorOn = 0x02 := by rw [h]; rfl
theorem SpecConstants.fBlinkOn_eq : c.fBlinkOn = 0x01 := by rw [h]; rfl
theorem SpecConstants.fEntryLeft_eq : c.fEntryLeft = 0x02 := by rw [h]; rfl
theorem SpecConstants.fEntryRight_eq : c.fEntryRight = 0x00 := by rw [h]; rfl
theorem SpecConstants.fShiftOn_eq : c.fShiftOn = 0x01 := by rw [h]; rfl
theorem SpecConstants.fShiftOff_eq : c.fShiftOff = 0x00 := by rw [h]; rfl
theorem SpecConstants.f8Bit_eq : c.f8Bit = 0x10 := by rw [h]; rfl
theorem SpecConstants.f4Bit_eq : c.f4Bit = 0x00 := by rw [h]; rfl
theorem SpecConstants.f2Line_eq : c.f2Line = 0x08 := by rw [h]; rfl
theorem SpecConstants.f1Line_eq : c.f1Line = 0x00 := by rw [h]; rfl
theorem SpecConstants.f5x8_eq : c.f5x8 = 0x00 := by rw [h]; rfl
theorem SpecConstants.f5x10_eq : c.f5x10 = 0x04 := by rw [h]; rfl
theorem SpecConstants.tPowerupMs_eq : c.tPowerupMs = 50 := by rw [h]; rfl
theorem SpecConstants.tBlMs_eq : c.tBlMs = 1 := by rw [h]; rfl
theorem SpecConstants.tFsMs_eq : c.tFsMs = 5 := by rw [h]; rfl
theorem SpecConstants.tClearMs_eq : c.tClearMs = 2 := by rw [h]; rfl
theorem SpecConstants.tEnUs_eq : c.tEnUs = 1 := by rw [h]; rfl

end Sys2Proof.Config
end

