-- ==== Sys2Proof/Laws/Decode.lean ====
section
/-! SUPPORT. The fields of the words the encoder writes. -/

namespace Sys2Proof

theorem append_toNat {m n : Nat} (x : BitVec m) (y : BitVec n) :
    (x ++ y).toNat = x.toNat * 2 ^ n + y.toNat := by
  rw [BitVec.toNat_append, ← Nat.shiftLeft_add_eq_or_of_lt y.isLt, Nat.shiftLeft_eq]

theorem hostWord_toNat (op : BitVec 4) (x y z : Byte) :
    (hostWord op x y z).toNat = op.toNat * 2 ^ 28 + x.toNat * 2 ^ 16 + y.toNat * 2 ^ 8 + z.toNat := by
  unfold hostWord
  rw [append_toNat, append_toNat, append_toNat, append_toNat]
  simp only [BitVec.toNat_ofNat]
  omega

section host
variable (op : BitVec 4) (x y z : Byte)

theorem extract_toNat {n : Nat} (w : BitVec n) (start len : Nat) :
    (w.extractLsb' start len).toNat = w.toNat / 2 ^ start % 2 ^ len := by
  simp [BitVec.extractLsb'_toNat, Nat.shiftRight_eq_div_pow]

@[simp] theorem hostOp_hostWord : hostOp (hostWord op x y z) = op := by
  have := op.isLt; have := x.isLt; have := y.isLt; have := z.isLt
  apply BitVec.eq_of_toNat_eq
  rw [hostOp, extract_toNat, hostWord_toNat]
  omega

@[simp] theorem hostZero_hostWord : hostZero (hostWord op x y z) = 0 := by
  have := op.isLt; have := x.isLt; have := y.isLt; have := z.isLt
  apply BitVec.eq_of_toNat_eq
  rw [hostZero, extract_toNat, hostWord_toNat]
  simp
  omega

@[simp] theorem hostX_hostWord : hostX (hostWord op x y z) = x := by
  have := op.isLt; have := x.isLt; have := y.isLt; have := z.isLt
  apply BitVec.eq_of_toNat_eq
  rw [hostX, extract_toNat, hostWord_toNat]
  omega

@[simp] theorem hostY_hostWord : hostY (hostWord op x y z) = y := by
  have := op.isLt; have := x.isLt; have := y.isLt; have := z.isLt
  apply BitVec.eq_of_toNat_eq
  rw [hostY, extract_toNat, hostWord_toNat]
  omega

@[simp] theorem hostZ_hostWord : hostZ (hostWord op x y z) = z := by
  have := op.isLt; have := x.isLt; have := y.isLt; have := z.isLt
  apply BitVec.eq_of_toNat_eq
  rw [hostZ, extract_toNat, hostWord_toNat]
  omega

end host

/-- A host word is its fields. -/
theorem hostWord_of_fields (w : BitVec 32) (h : hostZero w = 0) :
    hostWord (hostOp w) (hostX w) (hostY w) (hostZ w) = w := by
  have hw := w.isLt
  have hz : (hostZero w).toNat = 0 := by simp [h]
  apply BitVec.eq_of_toNat_eq
  rw [hostWord_toNat]
  simp only [hostOp, hostX, hostY, hostZ, hostZero, extract_toNat] at hz ⊢
  omega

theorem transportWord_toNat (top role : BitVec 2) (data : Byte) :
    (transportWord top role data).toNat = top.toNat * 2 ^ 10 + role.toNat * 2 ^ 8 + data.toNat := by
  unfold transportWord
  rw [append_toNat, append_toNat]
  omega

section transport
variable (top role : BitVec 2) (data : Byte)

@[simp] theorem transportTop_transportWord : transportTop (transportWord top role data) = top := by
  have := top.isLt; have := role.isLt; have := data.isLt
  apply BitVec.eq_of_toNat_eq
  rw [transportTop, extract_toNat, transportWord_toNat]
  omega

@[simp] theorem transportRole_transportWord : transportRole (transportWord top role data) = role := by
  have := top.isLt; have := role.isLt; have := data.isLt
  apply BitVec.eq_of_toNat_eq
  rw [transportRole, extract_toNat, transportWord_toNat]
  omega

@[simp] theorem transportData_transportWord : transportData (transportWord top role data) = data := by
  have := top.isLt; have := role.isLt; have := data.isLt
  apply BitVec.eq_of_toNat_eq
  rw [transportData, extract_toNat, transportWord_toNat]
  omega

end transport

/-- A transport word is its fields. -/
theorem transportWord_of_fields (w : BitVec 12) :
    transportWord (transportTop w) (transportRole w) (transportData w) = w := by
  have hw := w.isLt
  apply BitVec.eq_of_toNat_eq
  rw [transportWord_toNat]
  simp only [transportTop, transportRole, transportData, extract_toNat]
  omega

@[simp] theorem decodeFlag_field (f : Flag) : decodeFlag f.field = .ok f := by cases f <;> rfl

/-- A flag field that decodes is the flag's. -/
theorem field_of_decodeFlag (z : Byte) (f : Flag) (h : decodeFlag z = .ok f) : f.field = z := by
  unfold decodeFlag at h
  split at h
  · next hz => cases h; simp [hz, Flag.field, Flag.bit]
  · split at h
    · next hz => cases h; simp [hz, Flag.field, Flag.bit]
    · cases h

theorem construct_toNat (addr : DevAddr) : (0#1 ++ addr : Byte).toNat = addr.toNat := by
  rw [append_toNat]
  simp

@[simp] theorem construct_msb (addr : DevAddr) : (0#1 ++ addr : Byte).msb = false := by
  have h := addr.isLt
  rw [BitVec.msb_eq_false_iff_two_mul_lt, construct_toNat]
  omega

@[simp] theorem construct_addr (addr : DevAddr) : (0#1 ++ addr : Byte).setWidth 7 = addr := by
  apply BitVec.eq_of_toNat_eq
  rw [BitVec.toNat_setWidth, construct_toNat]
  exact Nat.mod_eq_of_lt addr.isLt

end Sys2Proof
end

