-- ==== Sys2Proof/Laws/Lines.lean ====
section
/-! SUPPORT. The views of the trace: what one entry does to the lines, and the views over an appended trace. -/

namespace Sys2Proof.Machine

variable (u : Nat → Byte) (a : DevAddr) (k : Nat) (now : Byte)

@[simp] theorem linesAfter_accepted (v : Byte) : linesAfter u a k now ⟨.w a v, .ok⟩ = v := by
  simp [linesAfter]

@[simp] theorem linesAfter_failed (v : Byte) (e : Err) : linesAfter u a k now ⟨.w a v, .err e⟩ = u k := by
  simp [linesAfter]

@[simp] theorem linesAfter_dms (n : Byte) (x : Answer) : linesAfter u a k now ⟨.dms n, x⟩ = now := rfl

@[simp] theorem linesAfter_dus (n : Byte) (x : Answer) : linesAfter u a k now ⟨.dus n, x⟩ = now := rfl

/-- A write to another address leaves the lines. -/
theorem linesAfter_other (b : DevAddr) (v : Byte) (x : Answer) (h : b ≠ a) :
    linesAfter u a k now ⟨.w b v, x⟩ = now := by
  simp [linesAfter, h]

/-- Lines that hold make no edge. -/
@[simp] theorem edge_self : edge now now = [] := by simp [edge]

theorem edge_of_low (v : Byte) (h : enableLine now = false) : edge now v = [] := by simp [edge, h]

theorem edge_falling (v : Byte) (h : enableLine now = true) (hv : enableLine v = false) :
    edge now v = [Latch.of v] := by simp [edge, h, hv]

theorem linesFrom_append (es fs : List Entry) :
    linesFrom u a k now (es ++ fs) = linesFrom u a (k + es.length) (linesFrom u a k now es) fs := by
  induction es generalizing k now with
  | nil => rfl
  | cons e es ih =>
    simp only [List.cons_append, linesFrom, List.length_cons]
    rw [ih, Nat.add_assoc, Nat.add_comm 1]

theorem latchesFrom_append (es fs : List Entry) :
    latchesFrom u a k now (es ++ fs) =
      latchesFrom u a k now es ++ latchesFrom u a (k + es.length) (linesFrom u a k now es) fs := by
  induction es generalizing k now with
  | nil => rfl
  | cons e es ih =>
    simp only [List.cons_append, latchesFrom, linesFrom, List.length_cons, List.append_assoc]
    rw [ih, Nat.add_assoc, Nat.add_comm 1]

end Sys2Proof.Machine
end

