-- ==== Sys2Proof/Laws/State.lean ====
section
/-! SUPPORT. One lemma per field per update of the state, each true by unfolding: no later proof unfolds a
record update of the shared operations. -/

namespace Sys2Proof.Machine

section memWrite
variable (s : State) (v : Byte)
@[simp] theorem memWrite_cfg : (s.memWrite v).cfg = s.cfg := rfl
@[simp] theorem memWrite_regs : (s.memWrite v).regs = s.regs := rfl
@[simp] theorem memWrite_phase : (s.memWrite v).phase = s.phase := rfl
@[simp] theorem memWrite_seq : (s.memWrite v).seq = s.seq := rfl
@[simp] theorem memWrite_result : (s.memWrite v).result = s.result := rfl
@[simp] theorem memWrite_requests : (s.memWrite v).env.requests = s.env.requests := rfl
@[simp] theorem memWrite_payload : (s.memWrite v).env.payload = s.env.payload := rfl
@[simp] theorem memWrite_sink : (s.memWrite v).env.sink = s.env.sink.tail := rfl
@[simp] theorem memWrite_writes : (s.memWrite v).env.writes = s.env.writes + 1 := rfl
@[simp] theorem memWrite_trace :
    (s.memWrite v).env.trace = s.env.trace ++ [⟨.w s.regs.addr v, s.env.nextAnswer⟩] := rfl
@[simp] theorem memWrite_results : (s.memWrite v).env.results = s.env.results := rfl
@[simp] theorem memWrite_resetLine : (s.memWrite v).env.resetLine = s.env.resetLine := rfl
end memWrite

section delay
variable (s : State) (ev : Event)
@[simp] theorem delay_cfg : (s.delay ev).cfg = s.cfg := rfl
@[simp] theorem delay_regs : (s.delay ev).regs = s.regs := rfl
@[simp] theorem delay_phase : (s.delay ev).phase = s.phase := rfl
@[simp] theorem delay_seq : (s.delay ev).seq = s.seq := rfl
@[simp] theorem delay_result : (s.delay ev).result = s.result := rfl
@[simp] theorem delay_requests : (s.delay ev).env.requests = s.env.requests := rfl
@[simp] theorem delay_payload : (s.delay ev).env.payload = s.env.payload := rfl
@[simp] theorem delay_sink : (s.delay ev).env.sink = s.env.sink := rfl
@[simp] theorem delay_writes : (s.delay ev).env.writes = s.env.writes := rfl
@[simp] theorem delay_trace : (s.delay ev).env.trace = s.env.trace ++ [⟨ev, .ok⟩] := rfl
@[simp] theorem delay_results : (s.delay ev).env.results = s.env.results := rfl
@[simp] theorem delay_resetLine : (s.delay ev).env.resetLine = s.env.resetLine := rfl
end delay

section finish
variable (s : State) (r : Result) (p : Phase)
@[simp] theorem finish_cfg : (s.finish r p).cfg = s.cfg := rfl
@[simp] theorem finish_regs : (s.finish r p).regs = s.regs := rfl
@[simp] theorem finish_phase : (s.finish r p).phase = p := rfl
@[simp] theorem finish_seq : (s.finish r p).seq = .idle := rfl
@[simp] theorem finish_result : (s.finish r p).result = r := rfl
@[simp] theorem finish_requests : (s.finish r p).env.requests = s.env.requests := rfl
@[simp] theorem finish_payload : (s.finish r p).env.payload = s.env.payload := rfl
@[simp] theorem finish_sink : (s.finish r p).env.sink = s.env.sink := rfl
@[simp] theorem finish_writes : (s.finish r p).env.writes = s.env.writes := rfl
@[simp] theorem finish_trace : (s.finish r p).env.trace = s.env.trace := rfl
@[simp] theorem finish_results : (s.finish r p).env.results = s.env.results ++ [r] := rfl
@[simp] theorem finish_resetLine : (s.finish r p).env.resetLine = s.env.resetLine := rfl
end finish

/-- The end of a request, in the words of Safety. -/
theorem finish_eq_ended (s : State) (r : Result) (p : Phase) : s.finish r p = ended r p s := rfl

@[simp] theorem refuse_eq (s : State) (r : RefusalCode) : s.refuse r = s.finish (.refused r) s.phase := rfl

@[simp] theorem raiseBusError_eq (s : State) (e : Err) (p : Phase) :
    s.raiseBusError e p = s.finish (.err e) p := rfl

section hardwareReset
variable (s : State)
@[simp] theorem hardwareReset_cfg : s.hardwareReset.cfg = s.cfg := rfl
@[simp] theorem hardwareReset_regs : s.hardwareReset.regs = Regs.reset := rfl
@[simp] theorem hardwareReset_phase : s.hardwareReset.phase = .unconstructed := rfl
@[simp] theorem hardwareReset_seq : s.hardwareReset.seq = .idle := rfl
@[simp] theorem hardwareReset_requests : s.hardwareReset.env.requests = s.env.requests := rfl
@[simp] theorem hardwareReset_payload : s.hardwareReset.env.payload = s.env.payload := rfl
@[simp] theorem hardwareReset_sink : s.hardwareReset.env.sink = s.env.sink := rfl
@[simp] theorem hardwareReset_writes : s.hardwareReset.env.writes = s.env.writes := rfl
@[simp] theorem hardwareReset_trace : s.hardwareReset.env.trace = s.env.trace := rfl
@[simp] theorem hardwareReset_results : s.hardwareReset.env.results = s.env.results := rfl
@[simp] theorem hardwareReset_resetLine : s.hardwareReset.env.resetLine = false := rfl
end hardwareReset

section takeRequest
variable (s : State) (w : PortWord)
@[simp] theorem takeRequest_cfg : (s.takeRequest w).cfg = s.cfg := rfl
@[simp] theorem takeRequest_regs : (s.takeRequest w).regs = s.regs := rfl
@[simp] theorem takeRequest_phase : (s.takeRequest w).phase = s.phase := rfl
@[simp] theorem takeRequest_seq : (s.takeRequest w).seq = s.seq := rfl
@[simp] theorem takeRequest_result : (s.takeRequest w).result = s.result := rfl
@[simp] theorem takeRequest_requests : (s.takeRequest w).env.requests = s.env.requests.tail := rfl
@[simp] theorem takeRequest_payload :
    (s.takeRequest w).env.payload = s.env.payload.drop (payloadLength w) := rfl
@[simp] theorem takeRequest_sink : (s.takeRequest w).env.sink = s.env.sink := rfl
@[simp] theorem takeRequest_writes : (s.takeRequest w).env.writes = s.env.writes := rfl
@[simp] theorem takeRequest_trace : (s.takeRequest w).env.trace = s.env.trace := rfl
@[simp] theorem takeRequest_results : (s.takeRequest w).env.results = s.env.results := rfl
@[simp] theorem takeRequest_resetLine : (s.takeRequest w).env.resetLine = s.env.resetLine := rfl
end takeRequest

section registers
variable (r : Regs) (f : Flag)
@[simp] theorem setDisplay_display : (r.setDisplay f).ctl.display = f := rfl
@[simp] theorem setDisplay_addr : (r.setDisplay f).addr = r.addr := rfl
@[simp] theorem setCursor_cursor : (r.setCursor f).ctl.cursor = f := rfl
@[simp] theorem setCursor_addr : (r.setCursor f).addr = r.addr := rfl
@[simp] theorem setBlink_blink : (r.setBlink f).ctl.blink = f := rfl
@[simp] theorem setBlink_addr : (r.setBlink f).addr = r.addr := rfl
@[simp] theorem setBacklight_backlight : (r.setBacklight f).ctl.backlight = f := rfl
@[simp] theorem setBacklight_addr : (r.setBacklight f).addr = r.addr := rfl
@[simp] theorem newline_addr : r.newline.addr = r.addr := rfl
@[simp] theorem newline_cols : r.newline.cols = r.cols := rfl
@[simp] theorem newline_rows : r.newline.rows = r.rows := rfl
@[simp] theorem newline_rowOff : r.newline.rowOff = r.rowOff := rfl
@[simp] theorem newline_ctl : r.newline.ctl = r.ctl := rfl
@[simp] theorem bl_newline (c : Config) : bl c r.newline = bl c r := rfl
end registers

end Sys2Proof.Machine
end

