-- ==== Sys2Proof/Laws/Ops.lean ====
section
/-! SUPPORT. What the shared operations can do, said once: one lemma per outcome of `operate`, `offer`, `perform`,
`arrive`; every request as an `Operation`; and the machine's steps along an operation. -/

namespace Sys2Proof.Machine

/-- The operation behind every request: `exec` is `operate` of it. -/
def operationOf : Instr → Operation
  | .construct addr cols rows => opConstruct addr cols rows
  | .clear => opClear
  | .home => opHome
  | .setCursorPosition col row => opSetCursorPosition col row
  | .createChar location bitmap => opCreateChar location bitmap
  | .setDisplay f => opSetDisplay f
  | .setCursor f => opSetCursor f
  | .setBlink f => opSetBlink f
  | .setBacklight f => opSetBacklight f
  | .print text => opPrint text
  | .write byte => opWrite byte
  | .expanderWrite data => opExpanderWrite data
  | .pulseEnable data => opPulseEnable data
  | .write4bits value => opWrite4bits value
  | .send data role => opSend data role
  | .command data => opCommand data
  | .cmdClear => emit .cmdClear
  | .cmdHome => emit .cmdHome
  | .cmdEntryMode d s => emit (.cmdEntryMode d s)
  | .cmdDisplayControl d c b => emit (.cmdDisplayControl d c b)
  | .cmdFunctionSet w n f => emit (.cmdFunctionSet w n f)
  | .cmdSetCgram a => emit (.cmdSetCgram a)
  | .cmdSetDdram a => emit (.cmdSetDdram a)

theorem exec_eq_operate (i : Instr) (s : State) : exec i s = operate (operationOf i) s := by
  cases i <;> rfl

@[simp] theorem operationOf_instr (i : Instr) : (operationOf i).instr = i := by cases i <;> rfl

theorem operationOf_needsReady (i : Instr) : (operationOf i).needsReady = !i.isConstruct := by
  cases i <;> rfl

theorem operationOf_badConfig (i : Instr) (c : Config) (r : Regs) :
    (operationOf i).badConfig c r = i.badConfig c r := by
  cases i <;> rfl

theorem operationOf_phaseOk (i : Instr) (p : Phase) :
    (operationOf i).phaseOk p = if i.isConstruct then .ready else p := by
  cases i <;> rfl

theorem operationOf_phaseErr (i : Instr) (p : Phase) :
    (operationOf i).phaseErr p = if i.isConstruct then .failed else p := by
  cases i <;> rfl

/-- Only `CREATE_CHAR` catches an error (R203). -/
theorem operationOf_resume (i : Instr) (c : Config) (idx : Nat) :
    (operationOf i).resume c idx =
      match i with
      | .createChar _ _ => createCharResume c idx
      | _ => none := by
  cases i <;> rfl

/-! ### operate -/

theorem operate_idle (o : Operation) (s : State) (h : s.seq = .idle) :
    operate o s = .next (offer o s) := by
  simp [operate, h]

theorem operate_running (o : Operation) (s : State) (idx : Nat) (h : s.seq = .running o.instr idx) :
    operate o s = .next (perform o idx s) := by
  simp [operate, h]

theorem operate_other (o : Operation) (s : State) (op : Instr) (idx : Nat) (h : s.seq = .running op idx)
    (hne : op ≠ o.instr) : operate o s = .next s := by
  simp [operate, h, hne]

theorem operate_next (o : Operation) (s : State) : ∃ t, operate o s = .next t := by
  rcases hs : s.seq with _ | ⟨op, idx⟩
  · exact ⟨_, operate_idle o s hs⟩
  · by_cases h : op = o.instr
    · exact ⟨_, operate_running o s idx (h ▸ hs)⟩
    · exact ⟨_, operate_other o s op idx hs h⟩

theorem exec_next (i : Instr) (s : State) : ∃ t, exec i s = .next t :=
  exec_eq_operate i s ▸ operate_next _ s

/-! ### arrive and offer -/

/-- The state `arrive` makes of the register writes alone. -/
abbrev entered (o : Operation) (idx : Nat) (s : State) : State := { s with regs := o.enter idx s.regs }

theorem arrive_running (o : Operation) (idx : Nat) (s : State)
    (h : idx < (o.plan s.cfg (o.enter idx s.regs)).length) :
    arrive o idx s = { s with regs := o.enter idx s.regs, seq := .running o.instr idx } := by
  simp [arrive, h]

theorem arrive_end (o : Operation) (idx : Nat) (s : State)
    (h : (o.plan s.cfg (o.enter idx s.regs)).length ≤ idx) :
    arrive o idx s = (entered o idx s).finish .ok (o.phaseOk s.phase) := by
  simp [arrive, Nat.not_lt.mpr h]

/-- Everything `arrive` can do. -/
theorem arrive_cases (o : Operation) (idx : Nat) (s : State) :
    (idx < (o.plan s.cfg (o.enter idx s.regs)).length ∧
      arrive o idx s = { s with regs := o.enter idx s.regs, seq := .running o.instr idx }) ∨
    ((o.plan s.cfg (o.enter idx s.regs)).length ≤ idx ∧
      arrive o idx s = (entered o idx s).finish .ok (o.phaseOk s.phase)) := by
  rcases Nat.lt_or_ge idx (o.plan s.cfg (o.enter idx s.regs)).length with h | h
  · exact .inl ⟨h, arrive_running o idx s h⟩
  · exact .inr ⟨h, arrive_end o idx s h⟩

/-- What arriving before an event never touches. -/
theorem arrive_keeps (o : Operation) (idx : Nat) (s : State) :
    (arrive o idx s).cfg = s.cfg ∧ (arrive o idx s).env.requests = s.env.requests ∧
      (arrive o idx s).env.payload = s.env.payload ∧ (arrive o idx s).env.trace = s.env.trace ∧
      (arrive o idx s).env.sink = s.env.sink ∧ (arrive o idx s).env.writes = s.env.writes ∧
      (arrive o idx s).env.resetLine = s.env.resetLine := by
  rcases arrive_cases o idx s with ⟨_, h⟩ | ⟨_, h⟩ <;> rw [h] <;> simp

@[simp] theorem arrive_cfg (o : Operation) (idx : Nat) (s : State) : (arrive o idx s).cfg = s.cfg :=
  (arrive_keeps o idx s).1
@[simp] theorem arrive_requests (o : Operation) (idx : Nat) (s : State) :
    (arrive o idx s).env.requests = s.env.requests := (arrive_keeps o idx s).2.1
@[simp] theorem arrive_payload (o : Operation) (idx : Nat) (s : State) :
    (arrive o idx s).env.payload = s.env.payload := (arrive_keeps o idx s).2.2.1
@[simp] theorem arrive_trace (o : Operation) (idx : Nat) (s : State) :
    (arrive o idx s).env.trace = s.env.trace := (arrive_keeps o idx s).2.2.2.1
@[simp] theorem arrive_sink (o : Operation) (idx : Nat) (s : State) :
    (arrive o idx s).env.sink = s.env.sink := (arrive_keeps o idx s).2.2.2.2.1
@[simp] theorem arrive_writes (o : Operation) (idx : Nat) (s : State) :
    (arrive o idx s).env.writes = s.env.writes := (arrive_keeps o idx s).2.2.2.2.2.1
@[simp] theorem arrive_resetLine (o : Operation) (idx : Nat) (s : State) :
    (arrive o idx s).env.resetLine = s.env.resetLine := (arrive_keeps o idx s).2.2.2.2.2.2

/-- Everything `offer` can do. -/
theorem offer_cases (o : Operation) (s : State) :
    (o.needsReady = true ∧ s.phase ≠ .ready ∧ offer o s = s.refuse .notReady) ∨
    ((o.needsReady = false ∨ s.phase = .ready) ∧ o.badConfig s.cfg s.regs = true ∧
      offer o s = s.refuse .badConfig) ∨
    ((o.needsReady = false ∨ s.phase = .ready) ∧ o.badConfig s.cfg s.regs = false ∧
      offer o s = arrive o 0 s) := by
  cases hr : o.needsReady <;> cases hb : o.badConfig s.cfg s.regs <;>
    by_cases hp : s.phase = .ready <;> simp [offer, hr, hb, hp]

/-- A request that is not refused arrives before its first event. -/
theorem offer_accepts (i : Instr) (s : State) (hphase : i.isConstruct = true ∨ s.phase = .ready)
    (hbad : i.badConfig s.cfg s.regs = false) : offer (operationOf i) s = arrive (operationOf i) 0 s := by
  have hready : (operationOf i).needsReady = false ∨ s.phase = .ready := by
    rw [operationOf_needsReady]
    rcases hphase with h | h <;> simp [h]
  rcases offer_cases (operationOf i) s with ⟨h1, h2, _⟩ | ⟨_, h2, _⟩ | ⟨_, _, h⟩
  · rcases hready with h | h
    · exact absurd (h ▸ h1) (by simp)
    · exact absurd h h2
  · rw [operationOf_badConfig, hbad] at h2
    exact absurd h2 (by simp)
  · exact h

/-! ### perform -/

/-- Everything `perform` can do. -/
theorem perform_cases (o : Operation) (idx : Nat) (s : State) :
    (∃ data, (o.plan s.cfg s.regs)[idx]? = some (.out data) ∧
      perform o idx s = afterWrite o idx s.env.nextAnswer (s.memWrite (wireByte s data))) ∨
    (∃ n, (o.plan s.cfg s.regs)[idx]? = some (.dms n) ∧
      perform o idx s = arrive o (idx + 1) (s.delay (.dms n))) ∨
    (∃ n, (o.plan s.cfg s.regs)[idx]? = some (.dus n) ∧
      perform o idx s = arrive o (idx + 1) (s.delay (.dus n))) ∨
    ((o.plan s.cfg s.regs).length ≤ idx ∧ perform o idx s = s.finish .ok (o.phaseOk s.phase)) := by
  unfold perform
  rcases h : (o.plan s.cfg s.regs)[idx]? with _ | (data | n | n)
  · exact .inr (.inr (.inr ⟨by simpa using h, rfl⟩))
  · exact .inl ⟨data, rfl, rfl⟩
  · exact .inr (.inl ⟨n, rfl, rfl⟩)
  · exact .inr (.inr (.inl ⟨n, rfl, rfl⟩))

/-- Everything the end of a bus write can be. -/
theorem afterWrite_cases (o : Operation) (idx : Nat) (a : Answer) (s : State) :
    (a = .ok ∧ afterWrite o idx a s = arrive o (idx + 1) s) ∨
    (∃ e next, a = .err e ∧ o.resume s.cfg idx = some next ∧ afterWrite o idx a s = arrive o next s) ∨
    (∃ e, a = .err e ∧ o.resume s.cfg idx = none ∧
      afterWrite o idx a s = s.raiseBusError e (o.phaseErr s.phase)) := by
  cases a with
  | ok => exact .inl ⟨rfl, rfl⟩
  | err e =>
    unfold afterWrite
    rcases h : o.resume s.cfg idx with _ | next
    · exact .inr (.inr ⟨e, rfl, rfl, rfl⟩)
    · exact .inr (.inl ⟨e, next, rfl, rfl, rfl⟩)

/-! ### step -/

theorem step_reset (s : State) (h : s.env.resetLine = true) : step s = .next s.hardwareReset := by
  simp [step, h]

theorem step_running (s : State) (op : Instr) (idx : Nat) (hs : s.seq = .running op idx)
    (hr : s.env.resetLine = false) : step s = .next (perform (operationOf op) idx s) := by
  have h : step s = exec op s := by simp [step, hs, hr]
  rw [h, exec_eq_operate]
  exact operate_running _ s idx (by simpa using hs)

/-- No step stops (R201, R211, R212). -/
theorem step_next (s : State) : ∃ t, step s = .next t := by
  unfold step
  split
  · exact ⟨_, rfl⟩
  · split
    · exact exec_next _ s
    · split
      · exact ⟨_, rfl⟩
      · exact ⟨_, rfl⟩
      · exact exec_next _ _

/-- The idle step: waiting, an illegal word, or a request that `offer` answers. -/
theorem step_idle_cases (s : State) (hs : s.seq = .idle) (hr : s.env.resetLine = false) :
    step s = .next s ∨
    (∃ w rest, s.env.requests = w :: rest ∧
      step s = .next ((s.takeRequest w).refuse .illegalRequest)) ∨
    (∃ w rest i, s.env.requests = w :: rest ∧
      decode w (s.env.payload.take (payloadLength w)) = .ok i ∧
      step s = .next (offer (operationOf i) (s.takeRequest w))) := by
  unfold step fetch
  simp only [hr, hs]
  rcases hq : s.env.requests with _ | ⟨w, rest⟩
  · exact .inl (by simp)
  · by_cases hl : s.env.payload.length < payloadLength w
    · exact .inl (by simp [hl])
    · rcases hd : decode w (s.env.payload.take (payloadLength w)) with e | i
      · exact .inr (.inl ⟨w, rest, rfl, by simp [hl, hd]⟩)
      · refine .inr (.inr ⟨w, rest, i, rfl, hd, ?_⟩)
        simp [hl, hd, exec_eq_operate, operate_idle _ (s.takeRequest w) hs]

end Sys2Proof.Machine
end

