-- ==== Sys2Proof/Laws/PerInstr.lean ====
section
/-! SUPPORT. The family `PayloadFits`: the payload a request is encoded with is as long as its word says
(30_encoding.md R97); one lemma per constructor. -/

namespace Sys2Proof.Laws.PayloadFits

/-- The payload of a well-formed request is as long as a reader of its word alone expects. -/
def Statement (i : Instr) : Prop := i.wf = true → (encode i).2.length = payloadLength (encode i).1

theorem construct (addr : DevAddr) (cols rows : Byte) : Statement (.construct addr cols rows) := by
  intro _; simp [encode, encodeWord, encodePayload, payloadLength, hostPayloadLength]
theorem clear : Statement .clear := by intro _; rfl
theorem home : Statement .home := by intro _; rfl
theorem setCursorPosition (col row : Byte) : Statement (.setCursorPosition col row) := by
  intro _; simp [encode, encodeWord, encodePayload, payloadLength, hostPayloadLength]
theorem createChar (location : Byte) (bitmap : List Byte) : Statement (.createChar location bitmap) := by
  intro h
  have hb : bitmap.length = 8 := by simpa [Instr.wf] using h
  simp [encode, encodeWord, encodePayload, payloadLength, hostPayloadLength, hb]
theorem setDisplay (f : Flag) : Statement (.setDisplay f) := by intro _; cases f <;> rfl
theorem setCursor (f : Flag) : Statement (.setCursor f) := by intro _; cases f <;> rfl
theorem setBlink (f : Flag) : Statement (.setBlink f) := by intro _; cases f <;> rfl
theorem setBacklight (f : Flag) : Statement (.setBacklight f) := by intro _; cases f <;> rfl
theorem print (text : List Byte) : Statement (.print text) := by
  intro h
  have hl : text.length ≤ 65535 := by simpa [Instr.wf] using h
  simp [encode, encodeWord, encodePayload, payloadLength, hostPayloadLength]
  omega
theorem write (b : Byte) : Statement (.write b) := by
  intro _; simp [encode, encodeWord, encodePayload, payloadLength, hostPayloadLength]
theorem expanderWrite (data : Byte) : Statement (.expanderWrite data) := by intro _; rfl
theorem pulseEnable (data : Byte) : Statement (.pulseEnable data) := by intro _; rfl
theorem write4bits (value : Byte) : Statement (.write4bits value) := by intro _; rfl
theorem send (data : Byte) (role : Role) : Statement (.send data role) := by intro _; rfl
theorem command (data : Byte) : Statement (.command data) := by intro _; rfl
theorem cmdClear : Statement .cmdClear := by intro _; rfl
theorem cmdHome : Statement .cmdHome := by intro _; rfl
theorem cmdEntryMode (d : Direction) (s : Flag) : Statement (.cmdEntryMode d s) := by intro _; rfl
theorem cmdDisplayControl (d c b : Flag) : Statement (.cmdDisplayControl d c b) := by intro _; rfl
theorem cmdFunctionSet (w : Width) (n : LineCount) (f : Font) : Statement (.cmdFunctionSet w n f) := by
  intro _; rfl
theorem cmdSetCgram (a : BitVec 6) : Statement (.cmdSetCgram a) := by intro _; rfl
theorem cmdSetDdram (a : BitVec 7) : Statement (.cmdSetDdram a) := by intro _; rfl

end Sys2Proof.Laws.PayloadFits
end

