-- ==== Sys2Proof/Laws/Run.lean ====
section
/-! SUPPORT. Carrying events out, and the lemma that ties the machine's steps along an operation to it: a
stretch of an operation without register writes between its events ends as `carryOut` says. -/

namespace Sys2Proof.Machine

theorem run_zero (s : State) : run 0 s = .next s := rfl

theorem run_succ (n : Nat) (s t : State) (h : step s = .next t) : run (n + 1) s = run n t := by
  have hc : core.step s = .next t := h
  simp only [run, Host.Core.run, hc]
  rfl

theorem run_add (m : Nat) : ∀ (n : Nat) (s t : State), run n s = .next t → run (n + m) s = run m t
  | 0, s, t, h => by
    have hst : s = t := by simpa [run_zero] using h
    simp [hst]
  | n + 1, s, t, h => by
    obtain ⟨u, hs⟩ := step_next s
    rw [run_succ n s u hs] at h
    rw [show n + 1 + m = (n + m) + 1 by omega, run_succ (n + m) s u hs]
    exact run_add m n u t h

/-! ### afterEvent and carryOut -/

@[simp] theorem afterEvent_cfg (ev : Event) (s : State) : (afterEvent ev s).cfg = s.cfg := by
  cases ev <;> rfl
@[simp] theorem afterEvent_regs (ev : Event) (s : State) : (afterEvent ev s).regs = s.regs := by
  cases ev <;> rfl
@[simp] theorem afterEvent_phase (ev : Event) (s : State) : (afterEvent ev s).phase = s.phase := by
  cases ev <;> rfl
@[simp] theorem afterEvent_seq (ev : Event) (s : State) : (afterEvent ev s).seq = s.seq := by
  cases ev <;> rfl
@[simp] theorem afterEvent_result (ev : Event) (s : State) : (afterEvent ev s).result = s.result := by
  cases ev <;> rfl
@[simp] theorem afterEvent_requests (ev : Event) (s : State) :
    (afterEvent ev s).env.requests = s.env.requests := by cases ev <;> rfl
@[simp] theorem afterEvent_payload (ev : Event) (s : State) :
    (afterEvent ev s).env.payload = s.env.payload := by cases ev <;> rfl
@[simp] theorem afterEvent_results (ev : Event) (s : State) :
    (afterEvent ev s).env.results = s.env.results := by cases ev <;> rfl
@[simp] theorem afterEvent_resetLine (ev : Event) (s : State) :
    (afterEvent ev s).env.resetLine = s.env.resetLine := by cases ev <;> rfl

theorem carryOut_cons (ev : Event) (evs : List Event) (s : State) :
    carryOut (ev :: evs) s =
      andThen (match errorOf ev s with
        | some e => (afterEvent ev s, some e)
        | none => (afterEvent ev s, none)) (carryOut evs) := by
  unfold carryOut andThen
  rcases errorOf ev s with _ | e <;> rfl

theorem carryOut_append (evs : List Event) :
    ∀ (fs : List Event) (s : State), carryOut (evs ++ fs) s = andThen (carryOut evs s) (carryOut fs) := by
  induction evs with
  | nil => intro fs s; rfl
  | cons ev evs ih =>
    intro fs s
    simp only [List.cons_append, carryOut]
    rcases errorOf ev s with _ | e
    · exact ih fs _
    · rfl

theorem andThen_none (t : State) (next : State → State × Option Err) : andThen (t, none) next = next t := rfl

theorem andThen_some (t : State) (e : Err) (next : State → State × Option Err) :
    andThen (t, some e) next = (t, some e) := rfl

/-- What carrying events out never touches. -/
theorem carryOut_keeps (evs : List Event) : ∀ s : State,
    (carryOut evs s).1.cfg = s.cfg ∧ (carryOut evs s).1.regs = s.regs ∧
      (carryOut evs s).1.phase = s.phase ∧ (carryOut evs s).1.seq = s.seq ∧
      (carryOut evs s).1.env.resetLine = s.env.resetLine := by
  induction evs with
  | nil => intro s; exact ⟨rfl, rfl, rfl, rfl, rfl⟩
  | cons ev evs ih =>
    intro s
    simp only [carryOut]
    rcases errorOf ev s with _ | e
    · simpa using ih (afterEvent ev s)
    · simp

@[simp] theorem carryOut_cfg (evs : List Event) (s : State) : (carryOut evs s).1.cfg = s.cfg :=
  (carryOut_keeps evs s).1
@[simp] theorem carryOut_regs (evs : List Event) (s : State) : (carryOut evs s).1.regs = s.regs :=
  (carryOut_keeps evs s).2.1
@[simp] theorem carryOut_phase (evs : List Event) (s : State) : (carryOut evs s).1.phase = s.phase :=
  (carryOut_keeps evs s).2.2.1
@[simp] theorem carryOut_seq (evs : List Event) (s : State) : (carryOut evs s).1.seq = s.seq :=
  (carryOut_keeps evs s).2.2.2.1
@[simp] theorem carryOut_resetLine (evs : List Event) (s : State) :
    (carryOut evs s).1.env.resetLine = s.env.resetLine := (carryOut_keeps evs s).2.2.2.2

/-- Carrying events out does not look at `SEQ` or the registers. -/
theorem carryOut_frame (evs : List Event) : ∀ (s : State) (r : Regs) (q : Seq),
    carryOut evs { s with regs := r, seq := q } =
      ({ (carryOut evs s).1 with regs := r, seq := q }, (carryOut evs s).2) := by
  induction evs with
  | nil => intro s r q; rfl
  | cons ev evs ih =>
    intro s r q
    simp only [carryOut]
    have he : errorOf ev { s with regs := r, seq := q } = errorOf ev s := rfl
    have ha : afterEvent ev { s with regs := r, seq := q } =
        { afterEvent ev s with regs := r, seq := q } := by cases ev <;> rfl
    rw [he, ha]
    rcases errorOf ev s with _ | e
    · exact ih (afterEvent ev s) r q
    · rfl

/-- Carrying events out does not look at `SEQ`. -/
theorem carryOut_seq_frame (evs : List Event) (s : State) (q : Seq) :
    carryOut evs { s with seq := q } = ({ (carryOut evs s).1 with seq := q }, (carryOut evs s).2) := by
  have h := carryOut_frame evs s s.regs q
  have hk := (carryOut_keeps evs s).2.1
  rw [show ({ s with seq := q } : State) = { s with regs := s.regs, seq := q } from rfl, h, ← hk]

/-- `PRINT`'s loop does not look at `SEQ`. -/
theorem carryOutText_seq_frame : ∀ (bs : List Byte) (s : State) (q : Seq),
    carryOutText bs { s with seq := q } = ({ (carryOutText bs s).1 with seq := q }, (carryOutText bs s).2)
  | [], _, _ => rfl
  | b :: bs, s, q => by
    have key : ∀ evs (w : State), andThen (carryOut evs { w with seq := q }) (carryOutText bs) =
        ({ (andThen (carryOut evs w) (carryOutText bs)).1 with seq := q },
          (andThen (carryOut evs w) (carryOutText bs)).2) := by
      intro evs w
      rw [carryOut_seq_frame]
      rcases carryOut evs w with ⟨t, _ | e⟩
      · exact carryOutText_seq_frame bs t q
      · rfl
    simp only [carryOutText]
    split
    · exact key (byteEvents s.cfg s.regs.newline (ddramByte s.cfg s.regs.newline 0 s.regs.newline.curRow)
        .command) { s with regs := s.regs.newline }
    · exact key _ s

/-- `CREATE_CHAR`'s swallowing loop does not look at `SEQ`. -/
theorem carryOutSwallowing_seq_frame : ∀ (bs : List Byte) (s : State) (q : Seq),
    carryOutSwallowing bs { s with seq := q } = { carryOutSwallowing bs s with seq := q }
  | [], _, _ => rfl
  | b :: bs, s, q => by
    simp only [carryOutSwallowing]
    rw [carryOut_seq_frame]
    exact carryOutSwallowing_seq_frame bs _ q

/-! ### The events of micro-operations -/

/-- The event a micro-operation performs with given registers (R12, R120). -/
def eventOf (c : Config) (r : Regs) : Micro → Event
  | .out data => .w r.addr (data ||| bl c r)
  | .dms n => .dms n
  | .dus n => .dus n

/-- One step at an event, in the words of `carryOut`: the operation arrives before the next event, or the
failed write is handled. -/
theorem perform_at (o : Operation) (idx : Nat) (s : State) (m : Micro)
    (h : (o.plan s.cfg s.regs)[idx]? = some m) :
    perform o idx s =
      match errorOf (eventOf s.cfg s.regs m) s with
      | none => arrive o (idx + 1) (afterEvent (eventOf s.cfg s.regs m) s)
      | some e => afterWrite o idx (.err e) (afterEvent (eventOf s.cfg s.regs m) s) := by
  unfold perform
  rw [h]
  cases m with
  | out data =>
    rcases ha : s.env.nextAnswer with _ | e
    · simp only [eventOf, errorOf, ha, afterWrite]
      rfl
    · simp only [eventOf, errorOf, ha]
      rfl
  | dms n => simp [eventOf, errorOf, State.delay, State.record, afterEvent]
  | dus n => simp [eventOf, errorOf, State.delay, State.record, afterEvent]

/-- A stretch `ms` of an operation from index `idx`, with no register write between its events, whose failed
writes are all handled by `onErr`: within its length the machine has carried its events out. -/
theorem run_stretch (o : Operation) (ho : operationOf o.instr = o) (onErr : Err → State → State) :
    ∀ (ms : List Micro) (idx : Nat) (s : State), ms ≠ [] → s.seq = .running o.instr idx →
      s.env.resetLine = false →
      (∀ j, j < ms.length → (o.plan s.cfg s.regs)[idx + j]? = ms[j]?) →
      (∀ j, 0 < j → j < ms.length → o.enter (idx + j) s.regs = s.regs) →
      (∀ j e (t : State), j < ms.length → t.cfg = s.cfg → t.regs = s.regs → t.phase = s.phase →
        afterWrite o (idx + j) (.err e) t = onErr e t) →
      (∀ (e : Err) (t : State) (q : Seq), onErr e { t with seq := q } = onErr e t) →
      ∃ n, n ≤ ms.length ∧ run n s = .next
        (match carryOut (ms.map (eventOf s.cfg s.regs)) s with
          | (t, none) => arrive o (idx + ms.length) t
          | (t, some e) => onErr e t)
  | [], _, _, hne => absurd rfl hne
  | [m], idx, s, _ => fun hs hr hp _ herr _ => by
    have hm : (o.plan s.cfg s.regs)[idx]? = some m := by simpa using hp 0 (by simp)
    refine ⟨1, le_refl 1, ?_⟩
    rw [run_succ 0 s _ (step_running s _ idx hs hr), run_zero, ho, perform_at o idx s m hm]
    simp only [List.map_cons, List.map_nil, carryOut]
    rcases he : errorOf (eventOf s.cfg s.regs m) s with _ | e
    · simp
    · simpa using herr 0 e (afterEvent (eventOf s.cfg s.regs m) s) (by simp) (by simp) (by simp) (by simp)
  | m :: m' :: ms, idx, s, _ => fun hs hr hp henter herr hseq => by
    have hm : (o.plan s.cfg s.regs)[idx]? = some m := by simpa using hp 0 (by simp)
    have hstep := step_running s _ idx hs hr
    rw [ho, perform_at o idx s m hm] at hstep
    simp only [List.map_cons (l := m' :: ms), carryOut]
    rcases he : errorOf (eventOf s.cfg s.regs m) s with _ | e
    · simp only [he] at hstep ⊢
      set t := afterEvent (eventOf s.cfg s.regs m) s with ht
      have htr : t.regs = s.regs := by simp [ht]
      have htc : t.cfg = s.cfg := by simp [ht]
      have htp : t.phase = s.phase := by simp [ht]
      have hent : o.enter (idx + 1) t.regs = t.regs := by
        rw [htr]; exact henter 1 (by omega) (by simp)
      have hlt : idx + 1 < (o.plan t.cfg (o.enter (idx + 1) t.regs)).length := by
        rw [hent, htc, htr]
        have := hp 1 (by simp)
        by_contra hge
        rw [List.getElem?_eq_none (by omega)] at this
        simp at this
      have harr : arrive o (idx + 1) t = { t with seq := .running o.instr (idx + 1) } := by
        rw [arrive_running o (idx + 1) t hlt, hent]
      rw [harr] at hstep
      set u : State := { t with seq := .running o.instr (idx + 1) } with hu
      obtain ⟨n, hn, hrun⟩ := run_stretch o ho onErr (m' :: ms) (idx + 1) u (by simp) rfl
        (by simp [hu, ht, hr])
        (by
          intro j hj
          have := hp (j + 1) (by simpa using hj)
          simpa [hu, htr, htc, Nat.add_assoc, Nat.add_comm 1 j] using this)
        (by
          intro j hj0 hj
          have := henter (j + 1) (by omega) (by simpa using hj)
          simpa [hu, htr, Nat.add_assoc, Nat.add_comm 1 j] using this)
        (by
          intro j e v hj hvc hvr hvp
          have := herr (j + 1) e v (by simpa using hj) (by rw [hvc]; exact htc) (by rw [hvr]; exact htr)
            (by rw [hvp]; exact htp)
          simpa [Nat.add_assoc, Nat.add_comm 1 j] using this)
        hseq
      refine ⟨n + 1, by simpa using hn, ?_⟩
      rw [run_succ n s u hstep, hrun]
      have hcu : u.cfg = s.cfg := htc
      have hru : u.regs = s.regs := htr
      have hco := carryOut_frame ((m' :: ms).map (eventOf s.cfg s.regs)) t t.regs (.running o.instr (idx + 1))
      have huu : u = { t with regs := t.regs, seq := .running o.instr (idx + 1) } := rfl
      rw [hcu, hru, huu, hco]
      have hk := carryOut_keeps ((m' :: ms).map (eventOf s.cfg s.regs)) t
      rcases hc : carryOut ((m' :: ms).map (eventOf s.cfg s.regs)) t with ⟨v, _ | e⟩
      · simp only
        rw [hc] at hk
        have hidx : idx + 1 + (m' :: ms).length = idx + (m :: m' :: ms).length := by simp; omega
        rw [hidx]
        simp only at hk
        obtain ⟨_, hk2, _⟩ := hk
        simp [arrive, ← hk2, State.finish]
      · simp only
        rw [hc] at hk
        simp only at hk
        obtain ⟨_, hk2, _⟩ := hk
        have : { v with regs := t.regs, seq := Seq.running o.instr (idx + 1) } =
            { v with seq := Seq.running o.instr (idx + 1) } := by rw [← hk2]
        rw [this, hseq]
    · simp only [he] at hstep ⊢
      refine ⟨1, by simp, ?_⟩
      rw [run_succ 0 s _ hstep, run_zero]
      have := herr 0 e (afterEvent (eventOf s.cfg s.regs m) s) (by simp) (by simp) (by simp) (by simp)
      simpa using this

/-- A whole operation that catches no error and writes registers before its first event only: within its
length it has carried its events out and concluded (R203). -/
theorem run_operation (o : Operation) (ho : operationOf o.instr = o) (s : State)
    (hs : s.seq = .running o.instr 0) (hr : s.env.resetLine = false)
    (hne : o.plan s.cfg s.regs ≠ [])
    (hres : ∀ idx, o.resume s.cfg idx = none)
    (henter : ∀ idx, 0 < idx → o.enter idx s.regs = s.regs) :
    ∃ n, n ≤ (o.plan s.cfg s.regs).length ∧ run n s = .next
      (concluded (o.phaseOk s.phase) (o.phaseErr s.phase)
        (carryOut ((o.plan s.cfg s.regs).map (eventOf s.cfg s.regs)) s)) := by
  obtain ⟨n, hn, hrun⟩ := run_stretch o ho (fun e t => t.finish (.err e) (o.phaseErr s.phase))
    (o.plan s.cfg s.regs) 0 s hne hs hr (by simp)
    (by intro j hj _; simpa using henter j hj)
    (by
      intro j e t _ hc _ hp
      simp [afterWrite, hc, hres, hp])
    (by intro e t q; rfl)
  refine ⟨n, hn, ?_⟩
  rw [hrun]
  have hk := carryOut_keeps ((o.plan s.cfg s.regs).map (eventOf s.cfg s.regs)) s
  rcases hc : carryOut ((o.plan s.cfg s.regs).map (eventOf s.cfg s.regs)) s with ⟨t, _ | e⟩
  · rw [hc] at hk
    obtain ⟨hcfg, hregs, hphase, -⟩ := hk
    simp only at hcfg hregs hphase
    have hlen : 0 < (o.plan s.cfg s.regs).length := List.length_pos_iff.mpr hne
    have hent : o.enter (0 + (o.plan s.cfg s.regs).length) t.regs = t.regs := by
      rw [hregs]; exact henter _ (by omega)
    simp only [concluded]
    rw [arrive_end _ _ _ (by rw [hent, hcfg, hregs]; omega), hphase]
    simp only [entered, hent]
    rfl
  · rfl

/-- A request accepted by the idle block, whose operation catches no error and writes registers (to `r`)
before its first event only, completes by carrying its events out. -/
theorem completes_of_plan (i : Instr) (s : State) (k : Nat) (r : Regs) (hs : s.seq = .idle)
    (hr : s.env.resetLine = false) (hphase : i.isConstruct = true ∨ s.phase = .ready)
    (hbad : i.badConfig s.cfg s.regs = false)
    (henter : (operationOf i).enter 0 s.regs = r)
    (hlater : ∀ idx, 0 < idx → (operationOf i).enter idx r = r)
    (hres : ∀ idx, (operationOf i).resume s.cfg idx = none)
    (hk : ((operationOf i).plan s.cfg r).length = k) (hpos : 0 < k) :
    Completes i s { s with regs := r, seq := .running i 0 } k
      (concluded (if i.isConstruct then .ready else s.phase) (if i.isConstruct then .failed else s.phase)
        (carryOut (((operationOf i).plan s.cfg r).map (eventOf s.cfg r))
          { s with regs := r, seq := .running i 0 })) := by
  constructor
  · rw [exec_eq_operate, operate_idle _ _ hs, offer_accepts i s hphase hbad,
      arrive_running _ _ _ (by rw [henter, hk]; exact hpos), henter, operationOf_instr]
  · have hne : (operationOf i).plan s.cfg r ≠ [] := by
      intro h
      rw [h] at hk
      exact absurd hk (by simp; omega)
    obtain ⟨n, hn, hrun⟩ := run_operation (operationOf i) (by simp)
      { s with regs := r, seq := .running i 0 } (by simp) hr hne hres hlater
    refine ⟨n, by simpa [hk] using hn, ?_⟩
    rw [hrun, operationOf_phaseOk, operationOf_phaseErr]

end Sys2Proof.Machine
end

