-- ==== Sys2Proof/Laws/Plans.lean ====
section
/-! SUPPORT. The event lists of the primitives in the words of the rules, and the length of every operation
(20_memory.md R67, 70_reset_and_hazards.md R251). -/

namespace Sys2Proof.Machine

@[simp] theorem length_expanderWrite (v : Byte) : (expanderWrite v).length = 1 := rfl
@[simp] theorem length_pulseEnable (c : Config) (v : Byte) : (pulseEnable c v).length = 4 := rfl
@[simp] theorem length_write4bits (c : Config) (v : Byte) : (write4bits c v).length = 5 := rfl
@[simp] theorem length_send (c : Config) (v : Byte) (role : Role) : (send c v role).length = 10 := rfl
@[simp] theorem length_command (c : Config) (v : Byte) : (command c v).length = 10 := rfl
@[simp] theorem length_setposBody (c : Config) (r : Regs) (col row : Byte) :
    (setposBody c r col row).length = 10 := rfl
@[simp] theorem length_clearBody (c : Config) : (clearBody c).length = 11 := rfl
@[simp] theorem length_init (c : Config) (r : Regs) : (init c r).length = 58 := rfl
@[simp] theorem length_printByte (c : Config) (r : Regs) (b : Byte) : (printByte c r b).length = 10 := by
  unfold printByte; split <;> simp

/-- Lists of pieces of one length. -/
theorem length_flatMap_of_length {α : Type} (f : α → List Micro) (k : Nat) (h : ∀ a, (f a).length = k) :
    ∀ l : List α, (l.flatMap f).length = k * l.length
  | [] => by simp
  | a :: l => by
    rw [List.flatMap_cons, List.length_append, h, length_flatMap_of_length f k h l, List.length_cons,
      Nat.mul_succ, Nat.add_comm]

/-- Where an index falls in a list of pieces of one length. -/
theorem getElem?_flatMap_of_length {α : Type} (f : α → List Micro) (k : Nat) (h : ∀ a, (f a).length = k) :
    ∀ (l : List α) (n j : Nat), j < k → (l.flatMap f)[k * n + j]? = (l[n]?).bind (fun a => (f a)[j]?)
  | [], n, j, _ => by simp
  | a :: l, 0, j, hj => by
    rw [List.flatMap_cons, Nat.mul_zero, Nat.zero_add, List.getElem?_append_left (by rw [h]; exact hj)]
    simp
  | a :: l, n + 1, j, hj => by
    have hk : (f a).length = k := h a
    rw [List.flatMap_cons, List.getElem?_append_right (by rw [hk, Nat.mul_succ]; omega), hk,
      show k * (n + 1) + j - k = k * n + j by rw [Nat.mul_succ]; omega,
      getElem?_flatMap_of_length f k h l n j hj]
    simp

theorem length_printPlan (c : Config) (r : Regs) (text : List Byte) :
    (text.flatMap (printByte c r)).length = 10 * text.length :=
  length_flatMap_of_length _ 10 (length_printByte c r) text

theorem length_bitmapPlan (c : Config) (bitmap : List Byte) :
    (bitmap.flatMap (fun b => send c b .registerSelect)).length = 10 * bitmap.length :=
  length_flatMap_of_length _ 10 (fun _ => length_send c _ _) bitmap

/-- Every operation is as many events as the cost table says, whatever the registers hold (R251). -/
theorem length_plan (i : Instr) (hi : i.wf = true) (c : Config) (r : Regs) :
    ((operationOf i).plan c r).length = i.eventCount := by
  cases i
  case createChar location bitmap =>
    have hb : bitmap.length = 8 := by simpa [Instr.wf] using hi
    simp [operationOf, opCreateChar, Instr.eventCount, hb]
  case print text => exact length_printPlan c r text
  all_goals rfl

/-- Where swallow mode goes on: at the first event of the next byte (R163). -/
theorem createCharResume_some (c : Config) (idx next : Nat) :
    createCharResume c idx = some next ↔
      c.createCharErrors = .swallow ∧ 10 ≤ idx ∧ next = 10 * (idx / 10 + 1) := by
  unfold createCharResume sendLength
  split <;> simp_all [eq_comm]

theorem createCharResume_none (c : Config) (idx : Nat) :
    createCharResume c idx = none ↔ ¬ (c.createCharErrors = .swallow ∧ 10 ≤ idx) := by
  unfold createCharResume sendLength
  split <;> simp_all

/-- An error is caught in swallow mode only, in a data byte of `CREATE_CHAR` only (R203). -/
theorem resume_some (i : Instr) (c : Config) (idx next : Nat)
    (h : (operationOf i).resume c idx = some next) :
    (∃ location bitmap, i = .createChar location bitmap) ∧ c.createCharErrors = .swallow ∧ 10 ≤ idx ∧
      next = 10 * (idx / 10 + 1) := by
  rw [operationOf_resume] at h
  cases i
  case createChar location bitmap => exact ⟨⟨_, _, rfl⟩, (createCharResume_some c idx next).mp h⟩
  all_goals exact absurd h (by simp)

/-! ### Where `PRINT` writes `CUR_ROW` -/

/-- Before the first event of the byte of index `n`: on a newline only (R165, R166). -/
theorem printEnter_start (text : List Byte) (n : Nat) (r : Regs) :
    printEnter text (10 * n) r = if text[n]? = some newlineByte then r.newline else r := by
  have h1 : 10 * n % sendLength = 0 := by simp [sendLength]
  have h2 : 10 * n / sendLength = n := by simp [sendLength]
  simp [printEnter, h1, h2]

/-- Between two events of one byte: nothing. -/
theorem printEnter_inside (text : List Byte) (n j : Nat) (r : Regs) (h0 : 0 < j) (h : j < 10) :
    printEnter text (10 * n + j) r = r := by
  have h1 : ¬ ((10 * n + j) % sendLength = 0) := by simp only [sendLength]; omega
  simp [printEnter, h1]

/-- After the last byte: nothing. -/
theorem printEnter_end (text : List Byte) (r : Regs) : printEnter text (10 * text.length) r = r := by
  rw [printEnter_start]; simp

/-! ### Events of the primitives -/

theorem map_write4bits (c : Config) (r : Regs) (v : Byte) :
    (write4bits c v).map (eventOf c r) = nibbleEvents c r v := rfl

theorem map_send (c : Config) (r : Regs) (v : Byte) (role : Role) :
    (send c v role).map (eventOf c r) = byteEvents c r v role := rfl

theorem map_command (c : Config) (r : Regs) (v : Byte) :
    (command c v).map (eventOf c r) = byteEvents c r v .command := rfl

theorem map_flatMap_send (c : Config) (r : Regs) (role : Role) : ∀ bytes : List Byte,
    (bytes.flatMap (fun b => send c b role)).map (eventOf c r) =
      bytes.flatMap (fun b => byteEvents c r b role)
  | [] => rfl
  | b :: bytes => by
    rw [List.flatMap_cons, List.map_append, map_send, map_flatMap_send c r role bytes, List.flatMap_cons]

end Sys2Proof.Machine
end

