-- ==== Sys2Proof/Machine/Assembler.lean ====
section
/-! DEFINITION. The textual form of a request (30_encoding.md R110) and the pseudo-operation `command(b)`
(R111): `assemble` reads one request [log 21]. -/

namespace Sys2Proof.Machine

/-- The lexical pieces of the call syntax. -/
inductive Token where
  | name (cs : List Char)
  | number (n : Nat)
  | text (bytes : List Byte)
  | openParen
  | closeParen
  | openBracket
  | closeBracket
  | comma
  deriving DecidableEq, Repr

/-- The value of a digit character in base 16. -/
def digitValue (c : Char) : Option Nat :=
  if '0' ≤ c ∧ c ≤ '9' then some (c.toNat - 48)
  else if 'a' ≤ c ∧ c ≤ 'f' then some (c.toNat - 87)
  else if 'A' ≤ c ∧ c ≤ 'F' then some (c.toNat - 55)
  else none

/-- The characters of names. -/
def isNameChar (c : Char) : Bool :=
  decide ('a' ≤ c ∧ c ≤ 'z') || decide ('A' ≤ c ∧ c ≤ 'Z') || c == '_' || decide ('0' ≤ c ∧ c ≤ '9')

/-- A run of name characters and what follows it. -/
def spanName : List Char → List Char × List Char
  | [] => ([], [])
  | c :: cs => if isNameChar c then let (a, b) := spanName cs; (c :: a, b) else ([], c :: cs)

/-- A number in a base, digit by digit. -/
def readDigits (base : Nat) : List Char → Nat → Option Nat
  | [], acc => some acc
  | c :: cs, acc =>
    match digitValue c with
    | some d => if d < base then readDigits base cs (base * acc + d) else none
    | none => none

/-- `0x41` in hexadecimal; the document's examples also write plain decimal numbers. -/
def readNumber : List Char → Option Nat
  | '0' :: 'x' :: c :: cs => readDigits 16 (c :: cs) 0
  | c :: cs => readDigits 10 (c :: cs) 0
  | [] => none

/-- The bytes of a text operand up to its closing quote: `\n` is 0x0A, any other character below 256 is
its code (R110, D14). -/
def readText : List Char → Option (List Byte × List Char)
  | '"' :: cs => some ([], cs)
  | '\\' :: 'n' :: cs => (readText cs).map (fun p => (0x0A :: p.1, p.2))
  | c :: cs =>
    if c = '\\' ∨ 256 ≤ c.toNat then none
    else (readText cs).map (fun p => (BitVec.ofNat 8 c.toNat :: p.1, p.2))
  | [] => none

/-- The tokens of a request; the fuel is the number of characters. -/
def lexWith : Nat → List Char → Option (List Token)
  | _, [] => some []
  | 0, _ :: _ => none
  | n + 1, c :: cs =>
    if c = ' ' then lexWith n cs
    else if c = '(' then (lexWith n cs).map (.openParen :: ·)
    else if c = ')' then (lexWith n cs).map (.closeParen :: ·)
    else if c = '[' then (lexWith n cs).map (.openBracket :: ·)
    else if c = ']' then (lexWith n cs).map (.closeBracket :: ·)
    else if c = ',' then (lexWith n cs).map (.comma :: ·)
    else if c = '"' then
      match readText cs with
      | some (bytes, rest) => (lexWith n rest).map (.text bytes :: ·)
      | none => none
    else if c = '\'' then
      match cs with
      | ch :: '\'' :: rest =>
        if ch.toNat < 128 then (lexWith n rest).map (.number ch.toNat :: ·) else none
      | _ => none
    else
      let (word, rest) := spanName (c :: cs)
      if '0' ≤ c ∧ c ≤ '9' then
        match readNumber word with
        | some k => (lexWith n rest).map (.number k :: ·)
        | none => none
      else if word = [] then none
      else (lexWith n rest).map (.name word :: ·)

/-- A byte operand. -/
def byteOperand (n : Nat) : Option Byte := if n < 256 then some (BitVec.ofNat 8 n) else none

/-- `On` or `Off`. -/
def flagOperand (cs : List Char) : Option Flag :=
  if cs = ['O', 'n'] then some .on else if cs = ['O', 'f', 'f'] then some .off else none

/-- The operands between the parentheses: names, numbers, texts and one bracketed list. -/
inductive Operand where
  | name (cs : List Char)
  | number (n : Nat)
  | text (bytes : List Byte)
  | list (ns : List Nat)
  deriving DecidableEq, Repr

/-- The rest of a bracketed list of numbers, after its first number. -/
def readList : List Token → Option (List Nat × List Token)
  | .closeBracket :: ts => some ([], ts)
  | .comma :: .number n :: ts => (readList ts).map (fun p => (n :: p.1, p.2))
  | _ => none

/-- The operands up to the closing parenthesis, which ends the request. -/
def readOperands : Nat → List Token → Option (List Operand)
  | 0, _ => none
  | fuel + 1, ts =>
    let more (o : Operand) (rest : List Token) : Option (List Operand) :=
      match rest with
      | [.closeParen] => some [o]
      | .comma :: rest' => (readOperands fuel rest').map (o :: ·)
      | _ => none
    match ts with
    | .name cs :: rest => more (.name cs) rest
    | .number n :: rest => more (.number n) rest
    | .text b :: rest => more (.text b) rest
    | .openBracket :: .number n :: rest =>
      match readList rest with
      | some (ns, rest') => more (.list (n :: ns)) rest'
      | none => none
    | _ => none

/-- The requests without operands. -/
def assembleBare (name : List Char) : Option Instr :=
  if name = "clear".toList then some .clear
  else if name = "home".toList then some .home
  else none

/-- The requests with operands (R110's list, and `command` of R111). -/
def assembleCall (name : List Char) (ops : List Operand) : Option Instr :=
  match ops with
  | [.number a] =>
    (byteOperand a).bind fun b =>
      if name = "write".toList then some (.write b)
      else if name = "expander_write".toList then some (.expanderWrite b)
      else if name = "pulse_enable".toList then some (.pulseEnable b)
      else if name = "write4bits".toList then some (.write4bits b)
      else if name = "command".toList then some (.command b)
      else none
  | [.name f] =>
    (flagOperand f).bind fun flag =>
      if name = "set_display".toList then some (.setDisplay flag)
      else if name = "set_cursor".toList then some (.setCursor flag)
      else if name = "set_blink".toList then some (.setBlink flag)
      else if name = "set_backlight".toList then some (.setBacklight flag)
      else none
  | [.text bytes] =>
    if name = "print".toList ∧ bytes.length ≤ 65535 then some (.print bytes) else none
  | [.number a, .number b] =>
    if name = "set_cursor_position".toList then
      (byteOperand a).bind fun col => (byteOperand b).map fun row => .setCursorPosition col row
    else none
  | [.number a, .name r] =>
    if name = "send".toList then
      (byteOperand a).bind fun data =>
        if r = "Command".toList then some (.send data .command)
        else if r = "RegisterSelect".toList then some (.send data .registerSelect)
        else none
    else none
  | [.number a, .list ns] =>
    if name = "create_char".toList ∧ ns.length = 8 then
      (byteOperand a).bind fun location => (ns.mapM byteOperand).map fun bytes => .createChar location bytes
    else none
  | [.number a, .number b, .number c] =>
    if name = "construct".toList ∧ a < 128 then
      (byteOperand b).bind fun cols =>
        (byteOperand c).map fun rows => .construct (BitVec.ofNat 7 a) cols rows
    else none
  | _ => none

/-- The request a text denotes, if it is one of R110's forms. -/
def assemble (cs : List Char) : Option Instr :=
  match lexWith cs.length cs with
  | some (.name n :: .openParen :: .closeParen :: []) => assembleBare n
  | some (.name n :: .openParen :: ts) =>
    (readOperands ts.length ts).bind fun ops => assembleCall n ops
  | _ => none

end Sys2Proof.Machine
end

