-- ==== Sys2Proof/Tests/Slice0.lean ====
section
/-! SUPPORT. The model's own tests. Expected words and traces are those of spec/30_encoding.md and
spec/95_test_vectors.md, cited as V<n>, T<n>, P<n>; the witnesses show that the hypotheses of the statements
can be met. -/

namespace Sys2Proof.Tests

open Machine

/-! ### Small states -/

/-- The registers of "fresh 16x2" (95_test_vectors.md, section 0). -/
def regs16x2 : Regs where
  addr := 0x27
  cols := 16
  rows := 2
  rowOff := ⟨0x00, 0x40, 0x10, 0x50⟩
  ctl := ⟨.off, .off, .off, .on, .left⟩
  curRow := 0

/-- An error value: the one every interpretation of the parameter `ERR` has. -/
def anErr : Err := ⟨0, .inl rfl⟩

/-- "Fresh 16x2" with a script of sink answers. -/
def fresh (sink : List Answer) : State :=
  { State.reset with regs := regs16x2, phase := .ready, env := { Env.empty with sink := sink } }

/-- `fresh` with an operation in progress. -/
def busy (op : Instr) (idx : Nat) (sink : List Answer) : State := { fresh sink with seq := .running op idx }

/-- The same in swallow mode. -/
def busySwallowing (op : Instr) (idx : Nat) (sink : List Answer) : State :=
  { busy op idx sink with cfg := { Config.spec with createCharErrors := .swallow } }

/-- The same with `ARITH_OVERFLOW = refuse`. -/
def freshRefusing : State :=
  { fresh [] with cfg := { Config.spec with arithOverflow := .refuse } }

/-- What a test looks at of an outcome, if it is a next state. -/
def look {α : Type} (f : State → α) : Out → Option α
  | .next t => some (f t)
  | .fault _ => none
  | .refused _ => none

/-- The last event a state has recorded. -/
def lastEvent (s : State) : Option Event := s.env.trace.getLast?.map (·.event)

/-- The event of index `idx` of an operation on "fresh 16x2", by one step with an accepting sink. -/
def eventAt (op : Instr) (idx : Nat) : Option (Option Event) := look lastEvent (step (busy op idx [.ok]))

/-! ### Well-formedness: an ill-formed term for each check -/

theorem test_wf_bitmap_short : (Instr.createChar 0 [1, 2, 3, 4, 5, 6, 7]).wf = false := by decide
theorem test_wf_bitmap_long : (Instr.createChar 0 [1, 2, 3, 4, 5, 6, 7, 8, 9]).wf = false := by decide
theorem test_wf_bitmap : (Instr.createChar 9 [0, 0x0A, 0x1F, 0x1F, 0x0E, 4, 0, 0]).wf = true := by decide
theorem test_wf_text (n : Nat) (h : n = 65535) : (Instr.print (List.replicate n 0x41)).wf = true ∧
    (Instr.print (List.replicate (n + 1) 0x41)).wf = false := by
  subst h
  constructor <;> rw [Instr.wf, List.length_replicate] <;> rfl

/-! ### Decoding: one word per constructor, written out from R95, R98 and R84 -/

theorem test_decode_construct :
    decode (.host 0b00010000001001110001000000000010#32) [] = .ok (.construct 0x27 16 2) := by decide
theorem test_decode_clear : decode (.host 0b00100000000000000000000000000000#32) [] = .ok .clear := by decide
theorem test_decode_home : decode (.host 0b00110000000000000000000000000000#32) [] = .ok .home := by decide
theorem test_decode_set_cursor_position :
    decode (.host 0b01000000000000000000010100000001#32) [] = .ok (.setCursorPosition 5 1) := by decide
theorem test_decode_create_char :
    decode (.host 0b01010000000000000000000000001001#32) [0x00, 0x0A, 0x1F, 0x1F, 0x0E, 0x04, 0x00, 0x00] =
      .ok (.createChar 9 [0x00, 0x0A, 0x1F, 0x1F, 0x0E, 0x04, 0x00, 0x00]) := by decide
theorem test_decode_set_display :
    decode (.host 0b01100000000000000000000000000001#32) [] = .ok (.setDisplay .on) := by decide
theorem test_decode_set_cursor :
    decode (.host 0b01110000000000000000000000000000#32) [] = .ok (.setCursor .off) := by decide
theorem test_decode_set_blink :
    decode (.host 0b10000000000000000000000000000001#32) [] = .ok (.setBlink .on) := by decide
theorem test_decode_set_backlight :
    decode (.host 0b10010000000000000000000000000000#32) [] = .ok (.setBacklight .off) := by decide
theorem test_decode_print :
    decode (.host 0b10100000000000000000000000000100#32) [0x41, 0x42, 0x0A, 0x43] =
      .ok (.print [0x41, 0x42, 0x0A, 0x43]) := by decide
theorem test_decode_write :
    decode (.host 0b10110000000000000000000001000001#32) [] = .ok (.write 0x41) := by decide
theorem test_decode_expander_write :
    decode (.transport 0b000011110111#12) [] = .ok (.expanderWrite 0xF7) := by decide
theorem test_decode_pulse_enable :
    decode (.transport 0b010000110100#12) [] = .ok (.pulseEnable 0x34) := by decide
theorem test_decode_write4bits :
    decode (.transport 0b100000110001#12) [] = .ok (.write4bits 0x31) := by decide
theorem test_decode_send :
    decode (.transport 0b110110100101#12) [] = .ok (.send 0xA5 .registerSelect) := by decide
/-- `COMMAND(b)` has no word of its own: it is `SEND(b, Command)`'s (R111, R124) [log 12]. -/
theorem test_decode_command :
    decode (.transport 0b110010100101#12) [] = .ok (.send 0xA5 .command) ∧
    encodeWord (.command 0xA5) = .transport 0b110010100101#12 := by decide
theorem test_decode_cmd_clear : decode (.commandByte 0b00000001#8) [] = .ok .cmdClear := by decide
theorem test_decode_cmd_home : decode (.commandByte 0b00000010#8) [] = .ok .cmdHome := by decide
theorem test_decode_cmd_entry_mode :
    decode (.commandByte 0b00000110#8) [] = .ok (.cmdEntryMode .left .off) := by decide
theorem test_decode_cmd_display_control :
    decode (.commandByte 0b00001110#8) [] = .ok (.cmdDisplayControl .on .on .off) := by decide
theorem test_decode_cmd_function_set :
    decode (.commandByte 0b00111000#8) [] = .ok (.cmdFunctionSet .eight .two .dots5x8) := by decide
theorem test_decode_cmd_set_cgram :
    decode (.commandByte 0b01001000#8) [] = .ok (.cmdSetCgram 0b001000) := by decide
theorem test_decode_cmd_set_ddram :
    decode (.commandByte 0b11000101#8) [] = .ok (.cmdSetDdram 0b1000101) := by decide

/-! ### Illegal words -/

/-- V52, V53. -/
theorem test_illegal_op :
    decode (.host 0x00000000) [] = .error .reservedOp ∧
    decode (.host 0xC0000000) [] = .error .reservedOp ∧
    decode (.host 0xF0000000) [] = .error .reservedOp := by decide
/-- V54. -/
theorem test_illegal_bits : decode (.host 0x21000000) [] = .error .reservedBits := by decide
/-- V55. -/
theorem test_illegal_unused : decode (.host 0x20000001) [] = .error .unusedField := by decide
/-- V56. -/
theorem test_illegal_flag : decode (.host 0x60000002) [] = .error .flagField := by decide
/-- V57. -/
theorem test_illegal_construct : decode (.host 0x10A71002) [] = .error .constructBit23 := by decide
/-- V10, V11. -/
theorem test_illegal_role :
    decode (.transport 0xEA5) [] = .error .roleField ∧ decode (.transport 0xFA5) [] = .error .roleField ∧
    decode (.transport 0x130) [] = .error .roleField := by decide
/-- R84: no command 0x00, no opcode 0x10, no function-set with a low bit set. -/
theorem test_illegal_command :
    decode (.commandByte 0x00) [] = .error .noCommand ∧ decode (.commandByte 0x03) [] = .error .noCommand ∧
    decode (.commandByte 0x10) [] = .error .noCommand ∧ decode (.commandByte 0x29) [] = .error .noCommand := by
  decide

/-! ### The table's words -/

theorem test_table_words :
    decodeTableWord 32 0x10271002 = some (.construct 0x27 16 2) ∧
    decodeTableWord 32 0x50000001 = some (.createChar 1 [0, 0, 0, 0, 0, 0, 0, 0]) ∧
    decodeTableWord 16 0xDA5 = some (.send 0xA5 .registerSelect) ∧
    decodeTableWord 12 0x430 = some (.pulseEnable 0x30) ∧
    decodeTableWord 8 0x06 = some (.cmdEntryMode .left .off) ∧
    decodeTableWord 16 0x1DA5 = none := by decide

/-- A word placed by `withFetchWord` is the first the block takes after reset. -/
theorem test_fetch_construct :
    step (State.reset.withFetchWord 32 0x10271002) =
      exec (.construct 0x27 16 2) State.reset := by rfl
/-- V49: any other request is answered `Refused(NotReady)` there. -/
theorem test_fetch_clear :
    look (fun t => (t.result, t.env.results, t.env.trace)) (step (State.reset.withFetchWord 32 0x20000000)) =
      some (.refused .notReady, [.refused .notReady], []) := by decide

/-! ### Transport -/

/-- V2. -/
theorem test_expander_write : eventAt (.expanderWrite 0xF7) 0 = some (some (.w 0x27 0xFF)) := by decide
/-- V4: enable already set in the argument. -/
theorem test_pulse_enable_high : eventAt (.pulseEnable 0x34) 0 = some (some (.w 0x27 0x3C)) := by decide
theorem test_pulse_enable_low : eventAt (.pulseEnable 0x34) 2 = some (some (.w 0x27 0x38)) := by decide
/-- V7. -/
theorem test_write4bits_present : eventAt (.write4bits 0x31) 0 = some (some (.w 0x27 0x39)) := by decide
theorem test_write4bits_delay : eventAt (.write4bits 0x31) 2 = some (some (.dus 1)) := by decide
/-- V6, V5. -/
theorem test_send_high : eventAt (.send 0xA5 .registerSelect) 1 = some (some (.w 0x27 0xAD)) := by decide
theorem test_send_low : eventAt (.send 0xA5 .command) 5 = some (some (.w 0x27 0x58)) := by decide
/-- R124. -/
theorem test_command : eventAt (.command 0x01) 6 = some (some (.w 0x27 0x1C)) := by decide

/-! ### Construction -/

/-- R36, V31: the registers after acceptance; the last offset wraps. -/
theorem test_construct_accept :
    look (fun t => (t.regs.addr, t.regs.rowOff, t.regs.ctl.backlight, t.seq))
        (exec (.construct 0x27 200 4) State.reset) =
      some (0x27, ⟨0x00, 0x40, 0xC8, 0x08⟩, .on, .running (.construct 0x27 200 4) 0) := by decide
/-- P1, index 54. -/
theorem test_construct_event : eventAt (.construct 0x27 16 2) 54 = some (some (.w 0x27 0x6C)) := by decide

/-! ### Display commands and data -/

/-- V17. -/
theorem test_clear_delay : eventAt .clear 10 = some (some (.dms 2)) := by decide
/-- V43: no delay when the sixth write fails. -/
theorem test_clear_fails (e : Err) :
    look (fun t => (t.seq, t.result, t.phase)) (step (busy .clear 8 [.err e])) =
      some (.idle, .err e, .ready) := by rfl
/-- V18. -/
theorem test_home_low : eventAt .home 5 = some (some (.w 0x27 0x28)) := by decide
/-- V21 (clamped row) and V23 (wrapping sum). -/
theorem test_set_cursor_position_clamp :
    eventAt (.setCursorPosition 3 7) 5 = some (some (.w 0x27 0x38)) := by decide
theorem test_set_cursor_position_wrap :
    eventAt (.setCursorPosition 255 1) 0 = some (some (.w 0x27 0xB8)) := by decide
/-- V27: location 9 is slot 1. -/
theorem test_create_char_slot :
    eventAt (.createChar 9 [0, 0x0A, 0x1F, 0x1F, 0x0E, 4, 0, 0]) 5 = some (some (.w 0x27 0x88)) := by decide
/-- V47: in swallow mode the byte after the failing one starts afresh. -/
theorem test_create_char_swallow :
    look (fun t => t.seq)
        (step (busySwallowing (.createChar 9 [0, 0x0A, 0x1F, 0x1F, 0x0E, 4, 0, 0]) 11 [.err anErr])) =
      some (.running (.createChar 9 [0, 0x0A, 0x1F, 0x1F, 0x0E, 4, 0, 0]) 20) := by decide
/-- V25: `WRITE` sends 0x0A as data. -/
theorem test_write_newline : eventAt (.write 0x0A) 5 = some (some (.w 0x27 0xA9)) := by decide
/-- V45: `CUR_ROW` is 1 before the first event of the newline byte; P2: its command is 0xC0. -/
theorem test_print_newline :
    look (fun t => (t.regs.curRow, t.seq)) (step (busy (.print [0x41, 0x42, 0x0A, 0x43]) 19 [])) =
      some (1, .running (.print [0x41, 0x42, 0x0A, 0x43]) 20) := by decide
/-- V26. -/
theorem test_print_empty :
    look (fun t => (t.seq, t.result, t.env.trace)) (exec (.print []) (fresh [])) =
      some (.idle, .ok, []) := by decide

/-! ### Control flags -/

/-- V33: the field changes on acceptance, the command is 0x0C. -/
theorem test_set_display_accept :
    look (fun t => (t.regs.ctl.display, t.seq)) (exec (.setDisplay .on) (fresh [])) =
      some (.on, .running (.setDisplay .on) 0) := by decide
/-- V41: no rollback. -/
theorem test_set_display_fails :
    look (fun t => (t.regs.ctl.value t.cfg, t.result))
        (step { busy (.setDisplay .on) 0 [.err anErr] with regs := regs16x2.setDisplay .on }) =
      some (0x0C, .err anErr) := by decide
/-- V20, the row (Off, On, On). -/
theorem test_aggregate :
    Ctl.value Config.spec ⟨.on, .off, .on, .on, .left⟩ = 0x0B ∧
    Ctl.value Config.spec ⟨.on, .off, .on, .off, .left⟩ = 0x03 ∧
    dispctlByte Config.spec { regs16x2 with ctl := ⟨.on, .off, .on, .off, .left⟩ } = 0x0B := by decide
/-- V36, V37 with the registers there. -/
theorem test_set_cursor :
    look lastEvent (step { busy (.setCursor .on) 5 [.ok] with
      regs := { regs16x2 with ctl := ⟨.on, .on, .off, .off, .left⟩ } }) =
      some (some (.w 0x27 0xE0)) := by decide
theorem test_set_blink :
    look lastEvent (step { busy (.setBlink .on) 6 [.ok] with
      regs := { regs16x2 with ctl := ⟨.on, .on, .on, .off, .left⟩ } }) =
      some (some (.w 0x27 0xF4)) := by decide
/-- V34. -/
theorem test_set_backlight :
    look lastEvent (step { busy (.setBacklight .off) 0 [.ok] with regs := regs16x2.setBacklight .off }) =
      some (some (.w 0x27 0x00)) := by decide

/-! ### Emitted commands -/

theorem test_cmd_clear : eventAt .cmdClear 5 = some (some (.w 0x27 0x18)) := by decide
theorem test_cmd_home : eventAt .cmdHome 5 = some (some (.w 0x27 0x28)) := by decide
theorem test_cmd_entry_mode : eventAt (.cmdEntryMode .left .off) 5 = some (some (.w 0x27 0x68)) := by decide
theorem test_cmd_display_control :
    eventAt (.cmdDisplayControl .on .on .on) 5 = some (some (.w 0x27 0xF8)) := by decide
theorem test_cmd_function_set :
    eventAt (.cmdFunctionSet .four .two .dots5x8) 5 = some (some (.w 0x27 0x88)) := by decide
theorem test_cmd_set_cgram : eventAt (.cmdSetCgram 0x08) 0 = some (some (.w 0x27 0x48)) := by decide
theorem test_cmd_set_ddram : eventAt (.cmdSetDdram 0x45) 0 = some (some (.w 0x27 0xC8)) := by decide

/-! ### The assembler: R110's examples -/

theorem test_assemble_position :
    assemble "set_cursor_position(0,1)".toList = some (.setCursorPosition 0 1) := by decide
theorem test_assemble_print :
    assemble "print(\"AB\\nC\")".toList = some (.print [0x41, 0x42, 0x0A, 0x43]) := by decide
theorem test_assemble_write : assemble "write('A')".toList = some (.write 0x41) := by decide
theorem test_assemble_construct :
    assemble "construct(0x27, 16, 2)".toList = some (.construct 0x27 16 2) := by decide
theorem test_assemble_create_char :
    assemble "create_char(1, [0x00,0x0A,0x1F,0x1F,0x0E,0x04,0x00,0x00])".toList =
      some (.createChar 1 [0x00, 0x0A, 0x1F, 0x1F, 0x0E, 0x04, 0x00, 0x00]) := by decide
theorem test_assemble_send :
    assemble "send(0xA5, RegisterSelect)".toList = some (.send 0xA5 .registerSelect) := by decide
theorem test_assemble_flag : assemble "set_blink(Off)".toList = some (.setBlink .off) := by decide
theorem test_assemble_refuses : assemble "set_blink(Maybe)".toList = none := by decide

/-! ### Witnesses: every statement's hypotheses can be met together

Each theorem is named after the statement it is about. -/

theorem witness_DecodeOfEncode :
    (Instr.createChar 9 [0, 0x0A, 0x1F, 0x1F, 0x0E, 4, 0, 0]).wf = true ∧ (Instr.print []).wf = true := by decide

theorem witness_EncodeOfDecode : decode (.host 0xA0000001) [0x41] = .ok (.print [0x41]) := by decide

/-- `CREATE_CHAR` with a non-zero unused field, its payload, and a following request at the ports. -/
def illegalOffered : State :=
  { State.reset with env := { Env.empty with
      requests := [.host 0x50000109, .host 0x20000000], payload := [1, 2, 3, 4, 5, 6, 7, 8, 9] } }

theorem witness_IllegalWordsAreRefused :
    Idle illegalOffered ∧ illegalOffered.env.requests = .host 0x50000109 :: [.host 0x20000000] ∧
    illegalOffered.env.payload = [1, 2, 3, 4, 5, 6, 7, 8] ++ [9] ∧
    [1, 2, 3, 4, 5, 6, 7, 8].length = payloadLength (.host 0x50000109) ∧
    ∀ i, decode (.host 0x50000109) [1, 2, 3, 4, 5, 6, 7, 8] ≠ .ok i := by
  refine ⟨by decide, by decide, by decide, by decide, fun i h => ?_⟩
  rw [show decode (.host 0x50000109) [1, 2, 3, 4, 5, 6, 7, 8] = .error .unusedField by decide] at h
  cases h

theorem witness_IllegalWordsAreRefused_words :
    ([] : List Byte).length = payloadLength (.host 0xC0000000) ∧
    [1, 2, 3, 4, 5, 6, 7, 8].length = payloadLength (.host 0x50000000) := by decide

theorem witness_HostWordsAreHostOperations : decode (.host 0xB0000041) [] = .ok (.write 0x41) := by decide

theorem witness_AssembledCommandsMatchTheTable :
    Config.spec.SpecConstants ∧
    ({ Config.spec with createCharErrors := .swallow, arithOverflow := .refuse } : Config).SpecConstants := by
  decide

/-- A `PRINT` of two bytes at the ports of "fresh 16x2", another byte and another request behind it. -/
def printOffered : State :=
  { fresh [] with env := { Env.empty with
      requests := [.host 0xA0000002, .host 0x20000000], payload := [0x41, 0x0A, 0x42] } }

theorem witness_StepRunsTheDecodedRequest :
    Idle printOffered ∧ printOffered.env.requests = .host 0xA0000002 :: [.host 0x20000000] ∧
    printOffered.env.payload = [0x41, 0x0A] ++ [0x42] ∧ [0x41, 0x0A].length = payloadLength (.host 0xA0000002) ∧
    decode (.host 0xA0000002) [0x41, 0x0A] = .ok (.print [0x41, 0x0A]) := by decide

theorem witness_BusyStepRunsTheOperationOnly :
    (busy .clear 3 [.ok]).seq = .running .clear 3 ∧ (busy .clear 3 [.ok]).env.resetLine = false ∧
    ∃ t, step (busy .clear 3 [.ok]) = .next t := ⟨rfl, rfl, _, rfl⟩

theorem witness_BlockWaits_no_request : Idle State.reset ∧ State.reset.env.requests = [] := by decide

/-- One payload byte short. -/
def shortOffered : State :=
  { fresh [] with env := { Env.empty with
      requests := [.host 0x50000009], payload := [1, 2, 3, 4, 5, 6, 7] } }

theorem witness_BlockWaits_payload :
    Idle shortOffered ∧ shortOffered.env.requests = .host 0x50000009 :: [] ∧
    shortOffered.env.payload.length < payloadLength (.host 0x50000009) := by decide

theorem witness_BlockWaits_busy : (busy .clear 3 []).seq = .running .clear 3 ∧ Instr.clear ≠ .home := by decide

/-- Hardware reset asserted in the middle of a `CLEAR`. -/
def resetAsserted : State := { busy .clear 3 [] with env := { Env.empty with resetLine := true } }

theorem witness_HardwareResetAbandons : resetAsserted.env.resetLine = true := by decide

/-- `CONSTRUCT` at the ports after reset. -/
def constructOffered : State :=
  { State.reset with env := { Env.empty with requests := [.host 0x10271002] } }

theorem witness_HardwareResetAbandons_idle :
    constructOffered.phase = .unconstructed ∧ constructOffered.seq = .idle ∧
    ∃ t, step constructOffered = .next t ∧ t.seq = .running (.construct 0x27 16 2) 0 := ⟨rfl, rfl, _, rfl, rfl⟩

theorem witness_SequencerAdvances_last :
    (busy (.write 0x41) 9 []).seq = .running (.write 0x41) 9 ∧ (Instr.write 0x41).wf = true ∧
    9 < (Instr.write 0x41).eventCount ∧ (busy (.write 0x41) 9 []).env.resetLine = false ∧
    ∃ t, step (busy (.write 0x41) 9 []) = .next t ∧ t.seq = .idle := ⟨rfl, rfl, by decide, rfl, _, rfl, rfl⟩

/-- A glyph. -/
def glyph : Instr := .createChar 9 [0, 0x0A, 0x1F, 0x1F, 0x0E, 4, 0, 0]

theorem witness_SequencerAdvances_swallow :
    (busySwallowing glyph 10 [.err anErr]).seq = .running glyph 10 ∧ glyph.wf = true ∧
    10 < glyph.eventCount ∧ (busySwallowing glyph 10 [.err anErr]).env.resetLine = false ∧
    ∃ t, step (busySwallowing glyph 10 [.err anErr]) = .next t ∧ t.seq = .running glyph 20 :=
  ⟨rfl, rfl, by decide, rfl, _, rfl, rfl⟩

/-- The last data byte of a glyph fails: nothing is left. -/
theorem witness_SequencerAdvances_swallow_last :
    (busySwallowing glyph 88 [.err anErr]).seq = .running glyph 88 ∧ 88 < glyph.eventCount ∧
    ∃ t, step (busySwallowing glyph 88 [.err anErr]) = .next t ∧ t.seq = .idle ∧ t.result = .ok :=
  ⟨rfl, by decide, _, rfl, rfl, rfl⟩

theorem witness_RefusalsInOrder_illegal :
    Idle illegalOffered ∧ illegalOffered.env.requests = .host 0x50000109 :: [.host 0x20000000] ∧
    payloadLength (.host 0x50000109) ≤ illegalOffered.env.payload.length ∧
    ∀ i, decode (.host 0x50000109) (illegalOffered.env.payload.take (payloadLength (.host 0x50000109))) ≠ .ok i := by
  refine ⟨by decide, by decide, by decide, fun i h => ?_⟩
  rw [show decode (.host 0x50000109)
    (illegalOffered.env.payload.take (payloadLength (.host 0x50000109))) = .error .unusedField by decide] at h
  cases h

/-- V60. -/
theorem witness_RefusalsInOrder_not_ready :
    ({ freshRefusing with phase := .failed } : State).seq = .idle ∧
    (Instr.setCursorPosition 255 1).isConstruct = false ∧
    ({ freshRefusing with phase := .failed } : State).phase ≠ .ready := by decide

/-- V51, and the boundary of the two overflowing sums (V31: `cols >= 0xC0`; V23: a sum above 0xFF). -/
theorem witness_RefusalsInOrder_bad_config :
    State.reset.seq = .idle ∧ (Instr.construct 0x27 16 0).isConstruct = true ∧
    Instr.badConfig Config.spec State.reset.regs (.construct 0x27 16 0) = true ∧
    Instr.badConfig freshRefusing.cfg regs16x2 (.construct 0x27 0xC0 1) = true ∧
    Instr.badConfig freshRefusing.cfg regs16x2 (.construct 0x27 0xBF 1) = false ∧
    freshRefusing.phase = .ready ∧
    Instr.badConfig freshRefusing.cfg regs16x2 (.setCursorPosition 0xC0 1) = true ∧
    Instr.badConfig freshRefusing.cfg regs16x2 (.setCursorPosition 0xBF 1) = false ∧
    Instr.badConfig Config.spec regs16x2 (.setCursorPosition 0xFF 1) = false := by decide

/-- V46, outside swallow mode; V48, in swallow mode but in the set-CGRAM command. -/
theorem witness_FailedWriteAborts :
    (∃ t, step (busy glyph 11 [.err anErr]) = .next t ∧
      t.env.trace = (busy glyph 11 [.err anErr]).env.trace ++ [⟨.w 0x27 0x0D, .err anErr⟩]) ∧
    (∃ t, step (busySwallowing glyph 1 [.err anErr]) = .next t ∧
      t.env.trace = (busySwallowing glyph 1 [.err anErr]).env.trace ++ [⟨.w 0x27 0x4C, .err anErr⟩]) ∧
    ¬ ((∃ l b, Instr.createChar 9 [] = .createChar l b) ∧
      (busy glyph 11 []).cfg.createCharErrors = .swallow ∧ 10 ≤ 11) ∧
    ¬ ((∃ l b, glyph = .createChar l b) ∧ (busySwallowing glyph 1 []).cfg.createCharErrors = .swallow ∧ 10 ≤ 1) := by
  refine ⟨⟨_, rfl, rfl⟩, ⟨_, rfl, rfl⟩, ?_, ?_⟩
  · rintro ⟨_, h, _⟩; exact absurd h (by decide)
  · rintro ⟨_, _, h⟩; exact absurd h (by decide)

theorem witness_ErrorValueIsNeverInspected :
    (busy .clear 0 [.err anErr]).env.sink ≠ [] ∧
    ∃ t, step (busy .clear 0 [.err anErr]) = .next t ∧ t.result = .err anErr := ⟨by decide, _, rfl, rfl⟩

theorem witness_ExpanderWriteIsOneWrite : ReadyIdle (fresh [.ok]) := by decide
theorem witness_PulseEnableStrobes : ReadyIdle (fresh [.ok, .err anErr]) := by decide
theorem witness_Write4bitsTransmitsANibble : ReadyIdle (fresh [.ok, .ok, .ok]) := by decide
theorem witness_SendTransmitsHighNibbleFirst : ReadyIdle (fresh []) := by decide
theorem witness_CommandIsSendWithCommandRole : ReadyIdle (fresh []) := by decide
theorem witness_ClearSendsAndWaits : ReadyIdle (fresh []) := by decide
theorem witness_HomeSendsAndWaits : ReadyIdle (fresh []) := by decide
theorem witness_WriteSendsOneDataByte : ReadyIdle (fresh []) := by decide
theorem witness_PrintFollowsTheText : ReadyIdle (fresh []) := by decide
theorem witness_FlagOperationsSendDisplayControl : ReadyIdle (fresh []) := by decide
theorem witness_SetBacklightWritesTheBacklightBit : ReadyIdle (fresh []) := by decide

theorem witness_EmittedCommandsAreSent :
    ReadyIdle (fresh []) ∧ encodeWord .cmdClear = .commandByte 0x01 ∧ encodeWord .cmdHome = .commandByte 0x02 ∧
    encodeWord (.cmdEntryMode .left .off) = .commandByte 0x06 ∧
    encodeWord (.cmdDisplayControl .on .off .off) = .commandByte 0x0C ∧
    encodeWord (.cmdFunctionSet .four .two .dots5x8) = .commandByte 0x28 ∧
    encodeWord (.cmdSetCgram 0x08) = .commandByte 0x48 ∧
    encodeWord (.cmdSetDdram 0x45) = .commandByte 0xC5 := by decide

theorem witness_ConstructRunsInit :
    Idle State.reset ∧ Instr.badConfig State.reset.cfg State.reset.regs (.construct 0x27 16 2) = false := by decide

theorem witness_ConstructFollowsTheInitTable :
    Idle State.reset ∧ State.reset.cfg.SpecConstants ∧
    Instr.badConfig State.reset.cfg State.reset.regs (.construct 0x27 16 2) = false := by decide

theorem witness_SetCursorPositionAddressesTheRow :
    ReadyIdle (fresh []) ∧ Instr.badConfig (fresh []).cfg (fresh []).regs (.setCursorPosition 255 255) = false := by
  decide

theorem witness_CreateCharPropagates :
    ReadyIdle (fresh []) ∧ (fresh []).cfg.createCharErrors = .propagate := by decide

/-- "Fresh 16x2" in swallow mode. -/
def freshSwallowing : State := { fresh [] with cfg := { Config.spec with createCharErrors := .swallow } }

theorem witness_CreateCharSwallows :
    ReadyIdle freshSwallowing ∧ freshSwallowing.cfg.createCharErrors = .swallow := by decide

/-- T8, and a one-row display (V28). -/
theorem witness_NewlineClampsToTheLastRow :
    Constructed Config.spec regs16x2 ∧ Constructed Config.spec { regs16x2 with curRow := 2 } ∧
    Constructed Config.spec { regs16x2 with rows := 1 } ∧
    Constructed Config.spec { regs16x2 with rows := 255, curRow := 254 } := by decide

theorem witness_AggregateByte : Config.spec.SpecConstants := by decide

theorem witness_EveryWriteCarriesAddressAndBacklight :
    ∃ t, step (busy (.write 0x41) 0 [.ok]) = .next t ∧
      t.env.trace = (busy (.write 0x41) 0 [.ok]).env.trace ++ [⟨.w 0x27 0x49, .ok⟩] := ⟨_, rfl, rfl⟩

theorem witness_HostOperationsNeverRead :
    (busy (.write 0x41) 0 [.ok]).cfg.SpecConstants ∧ (busy (.write 0x41) 0 [.ok]).seq = .running (.write 0x41) 0 ∧
    (Instr.write 0x41).isHost = true ∧ (busy (.write 0x41) 0 [.ok]).env.resetLine = false ∧
    ∃ t, step (busy (.write 0x41) 0 [.ok]) = .next t ∧
      t.env.trace = (busy (.write 0x41) 0 [.ok]).env.trace ++ [⟨.w 0x27 0x49, .ok⟩] :=
  ⟨by decide, rfl, rfl, rfl, _, rfl, rfl⟩

theorem witness_DelaysAreTheConfiguredOnes :
    (∃ t, step (busy .home 10 []) = .next t ∧
      t.env.trace = (busy .home 10 []).env.trace ++ [⟨.dms 2, .ok⟩]) ∧
    (∃ t, step (busy .home 2 []) = .next t ∧
      t.env.trace = (busy .home 2 []).env.trace ++ [⟨.dus 1, .ok⟩]) := ⟨⟨_, rfl, rfl⟩, _, rfl, rfl⟩

/-- `PRINT` arrives at a newline byte, and `SET_BLINK` is accepted. -/
theorem witness_RegistersHaveTheirWriters :
    (busy (.print [0x41, 0x0A]) 9 []).env.resetLine = false ∧
    (∃ t, step (busy (.print [0x41, 0x0A]) 9 []) = .next t ∧ t.regs.curRow = 1) ∧
    (∃ t, step ((fresh []).withFetchWord 32 0x80000001) = .next t ∧ t.regs.ctl.blink = .on) :=
  ⟨rfl, ⟨_, rfl, rfl⟩, _, rfl, rfl⟩

theorem witness_PhaseChangesOnlyByConstruct :
    (∃ t, step (busy (.construct 0x27 16 2) 57 []) = .next t ∧ t.phase = .ready) ∧
    (∃ t, step (busy (.construct 0x27 16 2) 1 [.err anErr]) = .next t ∧ t.phase = .failed) :=
  ⟨⟨_, rfl, rfl⟩, _, rfl, rfl⟩

theorem witness_OneByteIsTwoLatches :
    Config.spec.SpecConstants ∧ enableLine 0x68 = false ∧ enableLine 0x1C = true := by decide

theorem witness_PrintReachesTheController :
    ReadyIdle (fresh (List.replicate 12 .ok)) ∧ (fresh (List.replicate 12 .ok)).cfg.SpecConstants ∧
    BusAccepts (6 * [(0x41 : Byte), 0x0A].length) (fresh (List.replicate 12 .ok)) := by decide

/-- V13, and V44: the enable-low write of `WRITE`'s second pulse is its sixth write, index 8. -/
theorem witness_EnableLeftHigh :
    (busy (.pulseEnable 0x30) 0 [.ok, .err anErr]).cfg.SpecConstants ∧
    (Instr.pulseEnable 0x30).enableHighAt 0 = true ∧ 0 < (Instr.pulseEnable 0x30).eventCount ∧
    (Instr.write 0x41).enableHighAt 6 = true ∧ 6 < (Instr.write 0x41).eventCount ∧
    (Instr.write 0x41).wf = true ∧ (busy (.write 0x41) 6 [.ok, .err anErr]).env.resetLine = false ∧
    (busy (.write 0x41) 6 [.ok, .err anErr]).seq = .running (.write 0x41) 6 ∧
    (busy (.write 0x41) 6 [.ok, .err anErr]).env.sink = .ok :: .err anErr :: [] := by decide

/-- The indices of `CONSTRUCT`'s pulses at the seams of R150's table: rows 4, 22, 28, 38, 54 but not 27, 47, 48. -/
theorem test_enableHighAt_construct :
    [4, 22, 28, 38, 54].map (Instr.construct 0x27 16 2).enableHighAt = [true, true, true, true, true] ∧
    [1, 3, 21, 27, 37, 47, 48].map (Instr.construct 0x27 16 2).enableHighAt =
      [false, false, false, false, false, false, false] := by decide

theorem witness_EnableLeftHigh_writes :
    (busy (.write 0x41) 0 [.ok]).seq = .running (.write 0x41) 0 ∧
    0 = (if (Instr.write 0x41).isConstruct then 1 else 0) ∧ (Instr.write 0x41).isHost = true ∧
    (∃ t, step (busy (.write 0x41) 0 [.ok]) = .next t ∧
      t.env.trace = (busy (.write 0x41) 0 [.ok]).env.trace ++ [⟨.w 0x27 0x49, .ok⟩]) ∧
    1 = (if (Instr.construct 0x27 16 2).isConstruct then 1 else 0) ∧
    (∃ t, step (busy (.construct 0x27 16 2) 1 [.ok]) = .next t ∧
      t.env.trace = (busy (.construct 0x27 16 2) 1 [.ok]).env.trace ++ [⟨.w 0x27 0x08, .ok⟩]) :=
  ⟨rfl, rfl, rfl, ⟨_, rfl, rfl⟩, rfl, _, rfl, rfl⟩

/-- "Fresh 16x2" after V44's failure in `WRITE` did not reach the expander: enable stands high at 0x1C. -/
def heldHigh : State :=
  { fresh [.ok] with env := { Env.empty with
      sink := [.ok]
      trace := [⟨.w 0x27 0x1C, .ok⟩, ⟨.dus 1, .ok⟩, ⟨.w 0x27 0x18, .err anErr⟩] } }

theorem witness_HeldEnableLatchesAtTheNextWrite :
    Idle heldHigh ∧ heldHigh.phase = .ready ∧ (Instr.setBacklight .on).isHost = true ∧
    (Instr.setBacklight .on).badConfig heldHigh.cfg heldHigh.regs = false ∧
    0 < (Instr.setBacklight .on).eventCount ∧ heldHigh.cfg.SpecConstants ∧ BusAccepts 1 heldHigh ∧
    enableLine (linesFrom (fun _ => 0x1C) heldHigh.regs.addr 0 0 heldHigh.env.trace) = true := by decide

theorem witness_SetBacklightDrivesTheLinesLow :
    ReadyIdle heldHigh ∧ heldHigh.cfg.SpecConstants ∧ BusAccepts 1 heldHigh ∧
    enableLine (linesFrom (fun _ => 0x18) heldHigh.regs.addr 0 0 heldHigh.env.trace) = false := by decide

/-- R249 after R243: the held pulse falls at `SET_BACKLIGHT`'s byte, nibble 0000, register-select clear. -/
theorem test_held_enable :
    latchesFrom (fun _ => 0x1C) 0x27 0 0
      (heldHigh.env.trace ++ [⟨.w 0x27 0x08, .ok⟩]) = [⟨0, false⟩] ∧
    latchesFrom (fun _ => 0x18) 0x27 0 0
      (heldHigh.env.trace ++ [⟨.w 0x27 0x08, .ok⟩]) = [⟨1, false⟩] := by decide

theorem witness_EveryRequestCompletesAtItsCost :
    glyph.wf = true ∧ Idle (fresh (List.replicate 54 .ok)) ∧ (fresh (List.replicate 54 .ok)).phase = .ready ∧
    glyph.badConfig (fresh []).cfg (fresh []).regs = false ∧
    BusAccepts glyph.writeCount (fresh (List.replicate 54 .ok)) := by decide

/-- `CONSTRUCT` from reset. -/
theorem witness_EveryRequestCompletesAtItsCost_construct :
    (Instr.construct 0x27 16 2).isConstruct = true ∧
    Idle { State.reset with env := { Env.empty with sink := List.replicate 31 .ok } } ∧
    Instr.badConfig Config.spec Regs.reset (.construct 0x27 16 2) = false ∧
    BusAccepts (Instr.construct 0x27 16 2).writeCount
      { State.reset with env := { Env.empty with sink := List.replicate 31 .ok } } := by decide

theorem constructed_regs16x2 : Constructed Config.spec regs16x2 := by decide

theorem inv_fresh (sink : List Answer) : Inv (fresh sink) := ⟨fun _ => constructed_regs16x2, trivial⟩

theorem inv_busy (sink : List Answer) : Inv (busy (.print [0x41, 0x0A]) 3 sink) :=
  ⟨fun _ => constructed_regs16x2, rfl, by decide, constructed_regs16x2, fun _ => rfl⟩

theorem witness_EveryOperationEnds :
    Inv (busy (.print [0x41, 0x0A]) 3 []) ∧
    (busy (.print [0x41, 0x0A]) 3 []).seq = .running (.print [0x41, 0x0A]) 3 ∧
    (busy (.print [0x41, 0x0A]) 3 []).env.resetLine = false := ⟨inv_busy [], rfl, rfl⟩

theorem witness_StepKeepsInv :
    Inv (busy (.print [0x41, 0x0A]) 3 [.ok]) ∧
    ∃ t, step (busy (.print [0x41, 0x0A]) 3 [.ok]) = .next t := ⟨inv_busy [.ok], _, rfl⟩

end Sys2Proof.Tests
end

section
/-! PROOFS. What one step adds to the records of events and results (00_scope.md R9, 20_memory.md R62, R63). -/

namespace Sys2Proof.Machine

/-! ### The record of results -/

/-- `t` records the results `old` and at most one more, which it then shows in `RESULT` with `SEQ = IDLE` (R33). -/
def RecordsAtMostOneResult (old : List Result) (t : State) : Prop :=
  ∃ rs, t.env.results = old ++ rs ∧ rs.length ≤ 1 ∧ (rs ≠ [] → t.seq = .idle ∧ rs = [t.result])

theorem recordsAtMostOneResult_same (t : State) : RecordsAtMostOneResult t.env.results t :=
  ⟨[], by simp⟩

theorem recordsAtMostOneResult_finish (s : State) (r : Result) (p : Phase) :
    RecordsAtMostOneResult s.env.results (s.finish r p) :=
  ⟨[r], by simp⟩

theorem recordsAtMostOneResult_arrive (o : Operation) (idx : Nat) (s : State) :
    RecordsAtMostOneResult s.env.results (arrive o idx s) := by
  rcases arrive_cases o idx s with ⟨_, h⟩ | ⟨_, h⟩ <;> rw [h]
  · exact recordsAtMostOneResult_same { s with regs := o.enter idx s.regs, seq := .running o.instr idx }
  · exact recordsAtMostOneResult_finish (entered o idx s) .ok (o.phaseOk s.phase)

theorem recordsAtMostOneResult_offer (o : Operation) (s : State) :
    RecordsAtMostOneResult s.env.results (offer o s) := by
  rcases offer_cases o s with ⟨_, _, h⟩ | ⟨_, _, h⟩ | ⟨_, _, h⟩ <;> rw [h]
  · exact recordsAtMostOneResult_finish s (.refused .notReady) s.phase
  · exact recordsAtMostOneResult_finish s (.refused .badConfig) s.phase
  · exact recordsAtMostOneResult_arrive o 0 s

theorem recordsAtMostOneResult_afterWrite (o : Operation) (idx : Nat) (a : Answer) (s : State) :
    RecordsAtMostOneResult s.env.results (afterWrite o idx a s) := by
  rcases afterWrite_cases o idx a s with ⟨_, h⟩ | ⟨_, next, _, _, h⟩ | ⟨e, _, _, h⟩ <;> rw [h]
  · exact recordsAtMostOneResult_arrive o (idx + 1) s
  · exact recordsAtMostOneResult_arrive o next s
  · exact recordsAtMostOneResult_finish s (.err e) (o.phaseErr s.phase)

theorem recordsAtMostOneResult_perform (o : Operation) (idx : Nat) (s : State) :
    RecordsAtMostOneResult s.env.results (perform o idx s) := by
  rcases perform_cases o idx s with ⟨data, _, h⟩ | ⟨n, _, h⟩ | ⟨n, _, h⟩ | ⟨_, h⟩ <;> rw [h]
  · exact recordsAtMostOneResult_afterWrite o idx _ (s.memWrite (wireByte s data))
  · exact recordsAtMostOneResult_arrive o (idx + 1) (s.delay (.dms n))
  · exact recordsAtMostOneResult_arrive o (idx + 1) (s.delay (.dus n))
  · exact recordsAtMostOneResult_finish s .ok (o.phaseOk s.phase)

/-! ### The record of events -/

@[simp] theorem offer_trace (o : Operation) (s : State) : (offer o s).env.trace = s.env.trace := by
  rcases offer_cases o s with ⟨_, _, h⟩ | ⟨_, _, h⟩ | ⟨_, _, h⟩ <;> simp [h]

@[simp] theorem afterWrite_trace (o : Operation) (idx : Nat) (a : Answer) (s : State) :
    (afterWrite o idx a s).env.trace = s.env.trace := by
  rcases afterWrite_cases o idx a s with ⟨_, h⟩ | ⟨_, _, _, _, h⟩ | ⟨_, _, _, h⟩ <;> simp [h]

theorem perform_trace (o : Operation) (idx : Nat) (s : State) :
    ∃ es, (perform o idx s).env.trace = s.env.trace ++ es ∧ es.length ≤ 1 := by
  rcases perform_cases o idx s with ⟨data, _, h⟩ | ⟨n, _, h⟩ | ⟨n, _, h⟩ | ⟨_, h⟩ <;> rw [h]
  · exact ⟨[⟨.w s.regs.addr (wireByte s data), s.env.nextAnswer⟩], by simp⟩
  · exact ⟨[⟨.dms n, .ok⟩], by simp⟩
  · exact ⟨[⟨.dus n, .ok⟩], by simp⟩
  · exact ⟨[], by simp⟩

/-! ### The step -/

/-- With reset asserted or the block idle, the step records no event. -/
theorem step_of_reset_or_idle_records (s : State) (h : s.env.resetLine = true ∨ s.seq = .idle) :
    ∃ t, step s = .next t ∧ t.env.trace = s.env.trace ∧ RecordsAtMostOneResult s.env.results t := by
  by_cases hr : s.env.resetLine = true
  · exact ⟨_, step_reset s hr, hardwareReset_trace s, recordsAtMostOneResult_same s.hardwareReset⟩
  · have hidle : s.seq = .idle := h.resolve_left hr
    rcases step_idle_cases s hidle (by simpa using hr) with hstep | ⟨w, _, _, hstep⟩ | ⟨w, _, i, _, _, hstep⟩
    · exact ⟨s, hstep, rfl, recordsAtMostOneResult_same s⟩
    · exact ⟨_, hstep, rfl,
        recordsAtMostOneResult_finish (s.takeRequest w) (.refused .illegalRequest) s.phase⟩
    · exact ⟨_, hstep, offer_trace _ _, recordsAtMostOneResult_offer (operationOf i) (s.takeRequest w)⟩

/-- With an operation in progress, the step records at most one event. -/
theorem step_running_records (s : State) (op : Instr) (idx : Nat) (hs : s.seq = .running op idx)
    (hr : s.env.resetLine = false) :
    ∃ t es, step s = .next t ∧ t.env.trace = s.env.trace ++ es ∧ es.length ≤ 1 ∧
      RecordsAtMostOneResult s.env.results t := by
  obtain ⟨es, htrace, hlen⟩ := perform_trace (operationOf op) idx s
  exact ⟨_, es, step_running s op idx hs hr, htrace, hlen,
    recordsAtMostOneResult_perform (operationOf op) idx s⟩

/-- Settles O11: reset and the idle step record no event and at most one result, and a step of the operation in
progress is one `perform`, which records at most one of each. -/
theorem oneEventPerStep : Obligations.OneEventPerStep := by
  intro s
  by_cases hquiet : s.env.resetLine = true ∨ s.seq = .idle
  · obtain ⟨t, hstep, htrace, rs, hresults, hone, hshown⟩ := step_of_reset_or_idle_records s hquiet
    exact ⟨t, [], rs, hstep, by simp [htrace], by simp, hresults, hone, fun _ => rfl, hshown⟩
  · obtain ⟨hr, hbusy⟩ := not_or.mp hquiet
    rcases hs : s.seq with _ | ⟨op, idx⟩
    · exact absurd hs hbusy
    · obtain ⟨t, es, hstep, htrace, hlen, rs, hresults, hone, hshown⟩ :=
        step_running_records s op idx hs (by simpa using hr)
      exact ⟨t, es, rs, hstep, htrace, hlen, hresults, hone, nofun, hshown⟩

end Sys2Proof.Machine
end

section
/-! PROOFS. What one step of the block can do, said once: the register writes an operation makes before an event
(10_state.md R20), the end of an event, and the answer to a request; the statements below are read off these. -/

namespace Sys2Proof.Machine

/-! ### The register writes of an operation -/

/-- `Enters i idx r r'`: arriving before the event of index `idx`, the operation of `i` takes the registers from `r` to
`r'`. -/
inductive Enters : Instr → Nat → Regs → Regs → Prop where
  | nothing (i : Instr) (idx : Nat) (r : Regs) : Enters i idx r r
  | construct (addr : DevAddr) (cols rows : Byte) (r : Regs) :
    Enters (.construct addr cols rows) 0 r (Regs.construct addr cols rows)
  | display (f : Flag) (r : Regs) : Enters (.setDisplay f) 0 r (r.setDisplay f)
  | cursor (f : Flag) (r : Regs) : Enters (.setCursor f) 0 r (r.setCursor f)
  | blink (f : Flag) (r : Regs) : Enters (.setBlink f) 0 r (r.setBlink f)
  | backlight (f : Flag) (r : Regs) : Enters (.setBacklight f) 0 r (r.setBacklight f)
  | newline (text : List Byte) (idx : Nat) (r : Regs) : Enters (.print text) idx r r.newline

theorem enters_atStart (i : Instr) (write : Regs → Regs) (idx : Nat) (r : Regs)
    (h : Enters i 0 r (write r)) : Enters i idx r (atStart write idx r) := by
  cases idx with
  | zero => exact h
  | succ n => exact .nothing i (n + 1) r

theorem enters_printEnter (text : List Byte) (idx : Nat) (r : Regs) :
    Enters (.print text) idx r (printEnter text idx r) := by
  unfold printEnter
  split
  · exact .newline text idx r
  · exact .nothing _ idx r

theorem enter_construct (addr : DevAddr) (cols rows : Byte) :
    (operationOf (.construct addr cols rows)).enter = atStart fun _ => Regs.construct addr cols rows := rfl
theorem enter_setDisplay (f : Flag) :
    (operationOf (.setDisplay f)).enter = atStart fun r => r.setDisplay f := rfl
theorem enter_setCursor (f : Flag) :
    (operationOf (.setCursor f)).enter = atStart fun r => r.setCursor f := rfl
theorem enter_setBlink (f : Flag) :
    (operationOf (.setBlink f)).enter = atStart fun r => r.setBlink f := rfl
theorem enter_setBacklight (f : Flag) :
    (operationOf (.setBacklight f)).enter = atStart fun r => r.setBacklight f := rfl

theorem operationOf_enters (i : Instr) (idx : Nat) (r : Regs) :
    Enters i idx r ((operationOf i).enter idx r) := by
  cases i
  case construct addr cols rows =>
    exact enter_construct addr cols rows ▸ enters_atStart _ _ idx r (.construct addr cols rows r)
  case setDisplay f => exact enter_setDisplay f ▸ enters_atStart _ _ idx r (.display f r)
  case setCursor f => exact enter_setCursor f ▸ enters_atStart _ _ idx r (.cursor f r)
  case setBlink f => exact enter_setBlink f ▸ enters_atStart _ _ idx r (.blink f r)
  case setBacklight f => exact enter_setBacklight f ▸ enters_atStart _ _ idx r (.backlight f r)
  case print text => exact enters_printEnter text idx r
  all_goals exact .nothing _ idx r

/-- Past the text there is no newline left to make. -/
theorem printEnter_past_end (text : List Byte) (idx : Nat) (r : Regs) (h : 10 * text.length ≤ idx) :
    printEnter text idx r = r := by
  have hnone : text[idx / sendLength]? = none :=
    List.getElem?_eq_none (by simp only [sendLength]; omega)
  simp [printEnter, hnone]

theorem atStart_of_pos (write : Regs → Regs) (idx : Nat) (r : Regs) (h : 0 < idx) :
    atStart write idx r = r := by
  simp [atStart, Nat.ne_of_gt h]

/-- Past its last event an operation writes no register. -/
theorem enter_past_end (i : Instr) (idx : Nat) (c : Config) (r r' : Regs)
    (h : ((operationOf i).plan c r').length ≤ idx) : (operationOf i).enter idx r = r := by
  cases i
  case print text => exact printEnter_past_end text idx r (length_printPlan c r' text ▸ h)
  case construct | setDisplay | setCursor | setBlink | setBacklight =>
    have hpos : 0 < idx := Nat.lt_of_lt_of_le (Nat.zero_lt_succ _) h
    simp only [enter_construct, enter_setDisplay, enter_setCursor, enter_setBlink, enter_setBacklight,
      atStart_of_pos _ idx r hpos]
  all_goals rfl

/-- Arriving of a request's operation: it stands before the event, or has ended with the registers as they were. -/
theorem arrive_operationOf_cases (i : Instr) (idx : Nat) (s : State) :
    (idx < ((operationOf i).plan s.cfg ((operationOf i).enter idx s.regs)).length ∧
      arrive (operationOf i) idx s =
        { s with regs := (operationOf i).enter idx s.regs, seq := .running i idx }) ∨
    (((operationOf i).plan s.cfg ((operationOf i).enter idx s.regs)).length ≤ idx ∧
      arrive (operationOf i) idx s = s.finish .ok ((operationOf i).phaseOk s.phase)) := by
  rcases arrive_cases (operationOf i) idx s with ⟨hlt, h⟩ | ⟨hle, h⟩
  · exact .inl ⟨hlt, by rw [h, operationOf_instr]⟩
  · refine .inr ⟨hle, ?_⟩
    rw [h, entered, enter_past_end i idx _ _ _ hle]

theorem eq_construct_of_isConstruct (i : Instr) (h : i.isConstruct = true) :
    ∃ addr cols rows, i = .construct addr cols rows := by
  cases i
  case construct addr cols rows => exact ⟨addr, cols, rows, rfl⟩
  all_goals cases h

/-! ### The step of an operation in progress -/

/-- After the event of an operation in progress: it arrives before a later event, or ends with the error of the write,
or (past its last event) ends with `Ok`. -/
theorem perform_outcomes (i : Instr) (idx : Nat) (s : State) :
    (∃ ev next, idx < next ∧
      perform (operationOf i) idx s = arrive (operationOf i) next (afterEvent ev s)) ∨
    (∃ ev e, perform (operationOf i) idx s =
      (afterEvent ev s).finish (.err e) ((operationOf i).phaseErr s.phase)) ∨
    perform (operationOf i) idx s = s.finish .ok ((operationOf i).phaseOk s.phase) := by
  rcases perform_cases (operationOf i) idx s with ⟨data, _, h⟩ | ⟨n, _, h⟩ | ⟨n, _, h⟩ | ⟨_, h⟩
  · have hw : s.memWrite (wireByte s data) = afterEvent (.w s.regs.addr (wireByte s data)) s := rfl
    rw [h, hw]
    rcases afterWrite_cases (operationOf i) idx s.env.nextAnswer
      (afterEvent (.w s.regs.addr (wireByte s data)) s) with
      ⟨_, ha⟩ | ⟨_, next, _, hnext, ha⟩ | ⟨e, _, _, ha⟩
    · exact .inl ⟨_, idx + 1, Nat.lt_succ_self idx, ha⟩
    · obtain ⟨_, _, _, hval⟩ := resume_some i _ idx next hnext
      exact .inl ⟨_, next, by omega, ha⟩
    · exact .inr (.inl ⟨_, e, ha⟩)
  · exact .inl ⟨.dms n, idx + 1, Nat.lt_succ_self idx, h⟩
  · exact .inl ⟨.dus n, idx + 1, Nat.lt_succ_self idx, h⟩
  · exact .inr (.inr h)

/-! ### The step of the idle block -/

theorem decodeSet_wf (make : Flag → Instr) (hmake : ∀ f, (make f).wf = true) (x y z : Byte) (i : Instr)
    (h : decodeSet make x y z = .ok i) : i.wf = true := by
  unfold decodeSet at h
  split at h
  · rcases hf : decodeFlag z with _ | f
    · simp [hf, Except.map] at h
    · simp only [hf, Except.map, Except.ok.injEq] at h
      exact h ▸ hmake f
  · cases h

theorem decodeHostFields_wf (op : Nat) (x y z : Byte) (payload : List Byte) (i : Instr)
    (hbitmap : op = 0x5 → payload.length = 8) (htext : op = 0xA → payload.length ≤ 65535)
    (h : decodeHostFields op x y z payload = .ok i) : i.wf = true := by
  -- `split` numbers the arms as the `op` field does: `h_5` is `CREATE_CHAR`, `h_10` is `PRINT`, `h_12` is illegal.
  unfold decodeHostFields at h
  split at h
  case h_6 | h_7 | h_8 | h_9 => exact decodeSet_wf _ (fun _ => rfl) x y z i h
  case h_5 =>
    split at h <;> cases h
    simpa [Instr.wf] using hbitmap rfl
  case h_10 =>
    split at h <;> cases h
    simpa [Instr.wf] using htext rfl
  case h_12 => cases h
  all_goals
    split at h <;> cases h
    rfl

theorem hostPayloadLength_createChar (w : BitVec 32) (h : (hostOp w).toNat = 0x5) :
    hostPayloadLength w = 8 := by
  simp [hostPayloadLength, h]

/-- The length field has sixteen bits (R97). -/
theorem hostPayloadLength_le (w : BitVec 32) : hostPayloadLength w ≤ 65535 := by
  have hy := (hostY w).isLt
  have hz := (hostZ w).isLt
  unfold hostPayloadLength
  split <;> omega

theorem decodeHost_wf (w : BitVec 32) (payload : List Byte) (i : Instr)
    (h : decodeHost w payload = .ok i) : i.wf = true := by
  unfold decodeHost at h
  split at h
  · cases h
  next hlen =>
    have hlength : payload.length = hostPayloadLength w := not_not.mp hlen
    split at h
    · cases h
    · exact decodeHostFields_wf _ _ _ _ payload i
        (fun hop => hlength.trans (hostPayloadLength_createChar w hop))
        (fun _ => hlength ▸ hostPayloadLength_le w) h

theorem decodeTransport_wf (w : BitVec 12) (i : Instr) (h : decodeTransport w = .ok i) : i.wf = true := by
  simp only [decodeTransport] at h
  split at h <;> split at h <;> cases h <;> rfl

theorem decodeCommandByte_wf (b : Byte) (i : Instr) (h : decodeCommandByte b = .ok i) : i.wf = true := by
  unfold decodeCommandByte at h
  split_ifs at h <;> cases h <;> rfl

/-- Whatever the decoder accepts keeps the payload bounds of R97. -/
theorem wf_of_decode (w : PortWord) (payload : List Byte) (i : Instr) (h : decode w payload = .ok i) :
    i.wf = true := by
  cases w with
  | host w => exact decodeHost_wf w payload i h
  | transport w =>
    simp only [decode] at h
    split at h
    · exact decodeTransport_wf w i h
    · cases h
  | commandByte b =>
    simp only [decode] at h
    split at h
    · exact decodeCommandByte_wf b i h
    · cases h

/-- The idle step: the block waits, refuses, or stands before the first event of a well-formed request that neither
`NotReady` nor `BadConfig` applies to (R211, R36). -/
theorem step_idle_outcomes (s t : State) (hs : s.seq = .idle) (hr : s.env.resetLine = false)
    (h : step s = .next t) :
    t = s ∨
    (∃ w code, t = (s.takeRequest w).finish (.refused code) s.phase) ∨
    (∃ w i, i.wf = true ∧ (i.isConstruct = true ∨ s.phase = .ready) ∧ i.badConfig s.cfg s.regs = false ∧
      t = arrive (operationOf i) 0 (s.takeRequest w)) := by
  rcases step_idle_cases s hs hr with hstep | ⟨w, _, _, hstep⟩ | ⟨w, _, i, _, hdec, hstep⟩ <;>
    obtain rfl := Host.Outcome.next.inj (h.symm.trans hstep)
  · exact .inl rfl
  · exact .inr (.inl ⟨w, .illegalRequest, rfl⟩)
  · rcases offer_cases (operationOf i) (s.takeRequest w) with ⟨_, _, ho⟩ | ⟨_, _, ho⟩ | ⟨hready, hbad, ho⟩
    · exact .inr (.inl ⟨w, .notReady, ho⟩)
    · exact .inr (.inl ⟨w, .badConfig, ho⟩)
    · refine .inr (.inr ⟨w, i, wf_of_decode w _ i hdec, ?_, ?_, ho⟩)
      · simpa [operationOf_needsReady] using hready
      · simpa [operationOf_badConfig] using hbad

end Sys2Proof.Machine
end

section
/-! PROOFS. The invariant of the block: it holds at reset, every step keeps it, and from it an operation in progress
ends (10_state.md R23, R28, R30 to R32). -/

namespace Sys2Proof.Machine

/-! ### Constructed registers -/

/-- `CONSTRUCT` that is not refused loads a geometry with `ROWS >= 1` and no overflow (R140, D6, D7). -/
theorem constructed_of_construct (c : Config) (r : Regs) (addr : DevAddr) (cols rows : Byte)
    (h : Instr.badConfig c r (.construct addr cols rows) = false) :
    Constructed c (Regs.construct addr cols rows) := by
  simp only [Instr.badConfig, Bool.or_eq_false_iff, beq_eq_false_iff_ne, Bool.and_eq_false_imp,
    beq_iff_eq, decide_eq_false_iff_not, Nat.not_lt] at h
  obtain ⟨hrows, hsum⟩ := h
  have hpos : 1 ≤ rows.toNat := by
    have hne : rows.toNat ≠ 0 := fun h0 => hrows (BitVec.eq_of_toNat_eq h0)
    omega
  exact ⟨rfl, hpos, Nat.zero_le _, rfl, hsum⟩

/-- A newline keeps `CUR_ROW <= ROWS` (R166). -/
theorem constructed_newline (c : Config) (r : Regs) (h : Constructed c r) : Constructed c r.newline := by
  obtain ⟨hoff, hrows, _, hdir, hsum⟩ := h
  refine ⟨hoff, hrows, ?_, hdir, hsum⟩
  have hlt : r.rows.toNat < 256 := r.rows.isLt
  simp only [Regs.newline, BitVec.toNat_ofNat]
  omega

/-- Every register write but the one of `CONSTRUCT` keeps constructed registers constructed. -/
theorem constructed_of_enters {i : Instr} {idx : Nat} {r r' : Regs} (c : Config) (h : Enters i idx r r')
    (hi : i.isConstruct = false ∨ 0 < idx) (hr : Constructed c r) : Constructed c r' := by
  cases h with
  | nothing | display | cursor | blink | backlight => exact hr
  | construct => simp [Instr.isConstruct] at hi
  | newline => exact constructed_newline c r hr

/-- A request that is accepted stands before its first event on constructed registers. -/
theorem constructed_of_accepted (i : Instr) (c : Config) (r : Regs)
    (hr : i.isConstruct = false → Constructed c r) (hbad : i.badConfig c r = false) :
    Constructed c ((operationOf i).enter 0 r) := by
  rcases hi : i.isConstruct
  · exact constructed_of_enters c (operationOf_enters i 0 r) (.inl hi) (hr hi)
  · obtain ⟨addr, cols, rows, rfl⟩ := eq_construct_of_isConstruct i hi
    exact constructed_of_construct c r addr cols rows hbad

/-! ### Reset and the step -/

theorem inv_resetWith (c : Config) (e : Env) : Inv (State.resetWith c e) :=
  ⟨fun h => absurd rfl h, trivial⟩

/-- Settles O46: after reset `PHASE = UNCONSTRUCTED` and `SEQ = IDLE`, of which the invariant asks nothing. -/
theorem invAtReset : Obligations.InvAtReset :=
  ⟨inv_resetWith Config.spec Env.empty, inv_resetWith⟩

theorem inv_finish (s : State) (r : Result) (p : Phase)
    (h : p ≠ .unconstructed → Constructed s.cfg s.regs) : Inv (s.finish r p) :=
  ⟨h, trivial⟩

theorem inv_arrive (i : Instr) (idx : Nat) (s : State) (hwf : i.wf = true)
    (hregs : Constructed s.cfg ((operationOf i).enter idx s.regs))
    (hphase : i.isConstruct = false → s.phase = .ready) : Inv (arrive (operationOf i) idx s) := by
  rcases arrive_operationOf_cases i idx s with ⟨hlt, h⟩ | ⟨hle, h⟩ <;> rw [h]
  · exact ⟨fun _ => hregs, hwf, length_plan i hwf _ _ ▸ hlt, hregs, hphase⟩
  · rw [enter_past_end i idx _ _ _ hle] at hregs
    exact inv_finish s .ok _ fun _ => hregs

/-- What the invariant says of an operation in progress. -/
theorem inv_running {s : State} {i : Instr} {idx : Nat} (h : Inv s) (hs : s.seq = .running i idx) :
    i.wf = true ∧ idx < i.eventCount ∧ Constructed s.cfg s.regs ∧
      (i.isConstruct = false → s.phase = .ready) := by
  obtain ⟨-, hseq⟩ := h
  simpa only [SeqLegal, hs] using hseq

theorem inv_perform (i : Instr) (idx : Nat) (s : State) (h : Inv s) (hs : s.seq = .running i idx) :
    Inv (perform (operationOf i) idx s) := by
  obtain ⟨hwf, -, hregs, hphase⟩ := inv_running h hs
  rcases perform_outcomes i idx s with ⟨ev, next, hlt, hp⟩ | ⟨ev, e, hp⟩ | hp <;> rw [hp]
  · refine inv_arrive i next (afterEvent ev s) hwf ?_ (by simpa using hphase)
    simpa using constructed_of_enters s.cfg (operationOf_enters i next s.regs)
      (.inr (Nat.zero_lt_of_lt hlt)) hregs
  · exact inv_finish (afterEvent ev s) (.err e) _ fun _ => by simpa using hregs
  · exact inv_finish s .ok _ fun _ => hregs

/-- Settles O45: reset meets the invariant; an accepted request loads or keeps constructed registers; and an operation
in progress writes none of them but the flags and `CUR_ROW`, which a newline keeps within `ROWS`. -/
theorem stepKeepsInv : Obligations.StepKeepsInv := by
  intro s t hinv hstep
  rcases hr : s.env.resetLine
  · rcases hs : s.seq with _ | ⟨i, idx⟩
    · obtain ⟨hready, -⟩ := hinv
      rcases step_idle_outcomes s t hs hr hstep with rfl | ⟨w, code, rfl⟩ | ⟨w, i, hwf, hphase, hbad, rfl⟩
      · exact ⟨hready, by simp [SeqLegal, hs]⟩
      · exact inv_finish (s.takeRequest w) _ _ hready
      · have hnot : i.isConstruct = false → s.phase = .ready := fun hi => by simpa [hi] using hphase
        exact inv_arrive i 0 (s.takeRequest w) hwf
          (constructed_of_accepted i s.cfg s.regs (fun hi => hready (by simp [hnot hi])) hbad) hnot
    · obtain rfl := Host.Outcome.next.inj (hstep.symm.trans (step_running s i idx hs hr))
      exact inv_perform i idx s hinv hs
  · obtain rfl := Host.Outcome.next.inj (hstep.symm.trans (step_reset s hr))
    exact inv_resetWith s.cfg _

/-! ### The end of an operation -/

/-- A step of an operation in progress brings it to a later event with no result yet, or ends it with one result, which
is no refusal. -/
theorem perform_progresses (i : Instr) (idx : Nat) (s : State) :
    (∃ next, idx < next ∧ (perform (operationOf i) idx s).seq = .running i next ∧
      (perform (operationOf i) idx s).env.results = s.env.results ∧
      (perform (operationOf i) idx s).env.resetLine = s.env.resetLine) ∨
    ((perform (operationOf i) idx s).seq = .idle ∧
      (perform (operationOf i) idx s).env.results =
        s.env.results ++ [(perform (operationOf i) idx s).result] ∧
      ∀ r, (perform (operationOf i) idx s).result ≠ .refused r) := by
  rcases perform_outcomes i idx s with ⟨ev, next, hlt, hp⟩ | ⟨ev, e, hp⟩ | hp <;> rw [hp]
  · rcases arrive_operationOf_cases i next (afterEvent ev s) with ⟨_, ha⟩ | ⟨_, ha⟩ <;> rw [ha]
    · exact .inl ⟨next, hlt, by simp⟩
    · exact .inr (by simp)
  · exact .inr (by simp)
  · exact .inr (by simp)

/-- Settles O44, by induction on the events that are left: each step uses one up or ends the operation, and the
invariant keeps `SEQ` at an event of it. -/
theorem everyOperationEnds : Obligations.EveryOperationEnds := by
  intro s i idx hinv hs hr
  induction hleft : i.eventCount - idx using Nat.strong_induction_on generalizing s idx with
  | h left ih =>
    obtain ⟨-, hidx, -⟩ := inv_running hinv hs
    have hstep := step_running s i idx hs hr
    rcases perform_progresses i idx s with ⟨next, hlt, hseq, hres, hline⟩ | ⟨hidle, hres, hno⟩
    · have hinv' := stepKeepsInv s _ hinv hstep
      obtain ⟨-, hnext, -⟩ := inv_running hinv' hseq
      obtain ⟨n, t, hn, hrun, hidle, hone, hno⟩ :=
        ih (i.eventCount - next) (by omega) _ next hinv' hseq (hline.trans hr) rfl
      exact ⟨n + 1, t, by omega, (run_succ n s _ hstep).trans hrun, hidle, hres ▸ hone, hno⟩
    · exact ⟨1, _, by omega, run_succ 0 s _ hstep, hidle, hres, hno⟩

end Sys2Proof.Machine
end

section
/-! PROOFS. The step at the ports: when it takes a request, runs an operation, or waits (10_state.md R32,
30_encoding.md R97). -/

namespace Sys2Proof.Machine

theorem step_of_running (s : State) (op : Instr) (idx : Nat) (hs : s.seq = .running op idx)
    (hr : s.env.resetLine = false) : step s = exec op s := by
  simp [step, hs, hr]

theorem step_of_fetch_request (s t : State) (i : Instr) (h : Idle s) (hf : fetch s = .request i t) :
    step s = exec i t := by
  obtain ⟨hs, hr⟩ := h
  simp [step, hs, hr, hf]

theorem step_of_fetch_wait (s : State) (h : Idle s) (hf : fetch s = .wait) : step s = .next s := by
  obtain ⟨hs, hr⟩ := h
  simp [step, hs, hr, hf]

/-- A word with its whole payload before it at the ports is taken together with exactly that payload (R97). -/
theorem fetch_of_decode (s : State) (w : PortWord) (rest : List PortWord) (p q : List Byte) (i : Instr)
    (hreq : s.env.requests = w :: rest) (hpay : s.env.payload = p ++ q) (hlen : p.length = payloadLength w)
    (hdec : decode w p = .ok i) :
    fetch s = .request i { s with env := { s.env with requests := rest, payload := q } } := by
  have hall : ¬ s.env.payload.length < payloadLength w := by simp [hpay, ← hlen]
  have htake : s.env.payload.take (payloadLength w) = p := by simp [hpay, ← hlen]
  have hdrop : s.env.payload.drop (payloadLength w) = q := by simp [hpay, ← hlen]
  simp [fetch, hreq, hall, htake, hdec, State.takeRequest, hdrop]

theorem fetch_of_no_request (s : State) (h : s.env.requests = []) : fetch s = .wait := by
  simp [fetch, h]

theorem fetch_of_short_payload (s : State) (w : PortWord) (rest : List PortWord)
    (hreq : s.env.requests = w :: rest) (hlen : s.env.payload.length < payloadLength w) :
    fetch s = .wait := by
  simp [fetch, hreq, hlen]

/-- Settles O7: the fetch hands the decoded request over with its word and payload taken. -/
theorem stepRunsTheDecodedRequest : Obligations.StepRunsTheDecodedRequest := by
  intro s w rest p q i hidle hreq hpay hlen hdec
  exact step_of_fetch_request s _ i hidle (fetch_of_decode s w rest p q i hreq hpay hlen hdec)

/-- An operation in progress leaves the request port and the payload stream alone (R245). -/
theorem perform_ports (i : Instr) (idx : Nat) (s : State) :
    (perform (operationOf i) idx s).env.requests = s.env.requests ∧
      (perform (operationOf i) idx s).env.payload = s.env.payload := by
  rcases perform_outcomes i idx s with ⟨ev, next, _, h⟩ | ⟨ev, e, h⟩ | h <;> rw [h] <;> simp

/-- Settles O8: the busy step is `exec` of the operation in progress, which is one `perform` of it. -/
theorem busyStepRunsTheOperationOnly : Obligations.BusyStepRunsTheOperationOnly := by
  intro s op idx hs hr
  refine ⟨step_of_running s op idx hs hr, fun t hstep => ?_⟩
  obtain rfl := Host.Outcome.next.inj (hstep.symm.trans (step_running s op idx hs hr))
  exact perform_ports op idx s

/-- Settles O9: the fetch of an empty port or of a short payload waits, and `operate` makes no move for a request other
than the one in progress. -/
theorem blockWaits : Obligations.BlockWaits := by
  refine ⟨fun s hidle hreq => ?_, fun s w rest hidle hreq hlen => ?_, fun s i op idx hs hne => ?_⟩
  · exact step_of_fetch_wait s hidle (fetch_of_no_request s hreq)
  · exact step_of_fetch_wait s hidle (fetch_of_short_payload s w rest hreq hlen)
  · exact exec_eq_operate i s ▸ operate_other (operationOf i) s op idx hs (by simpa using hne)

end Sys2Proof.Machine
end

section
/-! PROOFS. How `SEQ` moves (10_state.md R32, 60_exceptions.md R203). -/

namespace Sys2Proof.Machine

@[simp] theorem afterEvent_w_trace (a : DevAddr) (v : Byte) (s : State) :
    (afterEvent (.w a v) s).env.trace = s.env.trace ++ [⟨.w a v, s.env.nextAnswer⟩] := rfl
@[simp] theorem afterEvent_dms_trace (n : Byte) (s : State) :
    (afterEvent (.dms n) s).env.trace = s.env.trace ++ [⟨.dms n, .ok⟩] := rfl
@[simp] theorem afterEvent_dus_trace (n : Byte) (s : State) :
    (afterEvent (.dus n) s).env.trace = s.env.trace ++ [⟨.dus n, .ok⟩] := rfl

/-- Arriving before an event of the operation, or past its last one. -/
theorem arrive_seq (i : Instr) (hwf : i.wf = true) (idx : Nat) (s : State) :
    (arrive (operationOf i) idx s).seq = if idx < i.eventCount then .running i idx else .idle := by
  rcases arrive_operationOf_cases i idx s with ⟨hlt, h⟩ | ⟨hle, h⟩ <;> rw [length_plan i hwf] at * <;> rw [h]
  · rw [if_pos hlt]
  · rw [if_neg (Nat.not_lt.mpr hle), finish_seq]

/-- An error that swallow mode catches: `SEQ` goes to the next byte (R163) [log 13]. -/
theorem afterWrite_err_seq_of_swallow (location : Byte) (bitmap : List Byte) (idx : Nat) (e : Err) (s : State)
    (hwf : (Instr.createChar location bitmap).wf = true)
    (h : s.cfg.createCharErrors = .swallow ∧ 10 ≤ idx) :
    (afterWrite (operationOf (.createChar location bitmap)) idx (.err e) s).seq =
      if 10 * (idx / 10 + 1) < 90 then .running (.createChar location bitmap) (10 * (idx / 10 + 1))
      else .idle := by
  have hres : (operationOf (.createChar location bitmap)).resume s.cfg idx = some (10 * (idx / 10 + 1)) :=
    (createCharResume_some s.cfg idx _).mpr ⟨h.1, h.2, rfl⟩
  simp only [afterWrite, hres]
  exact arrive_seq _ hwf _ s

/-- An error that is not caught ends the operation (R203). -/
theorem afterWrite_err_seq_of_uncaught (i : Instr) (idx : Nat) (e : Err) (s : State)
    (h : (operationOf i).resume s.cfg idx = none) :
    (afterWrite (operationOf i) idx (.err e) s).seq = .idle := by
  simp [afterWrite, h]

/-- Settles O12: the event of the index is performed and recorded; then the operation arrives before the next one, or
the failed write is caught or taken. -/
theorem sequencerAdvances : Obligations.SequencerAdvances := by
  intro s t op idx hs hwf hidx hr hstep
  obtain ⟨m, hm⟩ : ∃ m, ((operationOf op).plan s.cfg s.regs)[idx]? = some m :=
    ⟨_, List.getElem?_eq_getElem (length_plan op hwf s.cfg s.regs ▸ hidx)⟩
  obtain rfl := Host.Outcome.next.inj (hstep.symm.trans (step_running s op idx hs hr))
  rw [perform_at _ idx s m hm]
  refine ⟨eventOf s.cfg s.regs m, ?_, ?_⟩
  · rcases errorOf (eventOf s.cfg s.regs m) s <;> cases m <;> simp [eventOf]
  · rcases errorOf (eventOf s.cfg s.regs m) s with _ | e
    · exact arrive_seq op hwf (idx + 1) _
    · cases op
      case createChar location bitmap =>
        by_cases hswallow : s.cfg.createCharErrors = .swallow ∧ 10 ≤ idx
        · simpa only [if_pos hswallow] using
            afterWrite_err_seq_of_swallow location bitmap idx e _ hwf (by simpa using hswallow)
        · have hnone : (operationOf (.createChar location bitmap)).resume s.cfg idx = none :=
            (createCharResume_none s.cfg idx).mpr hswallow
          simpa only [if_neg hswallow] using
            afterWrite_err_seq_of_uncaught _ idx e _ (by simpa using hnone)
      all_goals exact afterWrite_err_seq_of_uncaught _ idx e _ rfl

end Sys2Proof.Machine
end

section
/-! PROOFS. The Control Aggregator's byte (10_state.md R27, R28; 30_encoding.md R89). -/

namespace Sys2Proof.Machine

/-- The OR with the opcode 0x08 hides bit 3, the backlight's. -/
theorem opDispctl_or_bits : ∀ l d u b : BitVec 1,
    0x08#8 ||| (0#4 ++ l ++ d ++ u ++ b) = 0b00001#5 ++ d ++ u ++ b := by
  decide

theorem xor_backlightBit : ∀ d u b : BitVec 1,
    (0#4 ++ Flag.on.bit ++ d ++ u ++ b) ^^^ (0#4 ++ Flag.off.bit ++ d ++ u ++ b) = 0x08#8 := by
  decide

/-- The display-control bytes are the eight from 0x08 to 0x0F (R89). -/
theorem displayControl_range : ∀ d u b : BitVec 1,
    0x08 ≤ (0b00001#5 ++ d ++ u ++ b).toNat ∧ (0b00001#5 ++ d ++ u ++ b).toNat ≤ 0x0F := by
  decide

section specConstants

variable {c : Config} (h : c.SpecConstants)
include h

/-- `CTL.value()` has the backlight in bit 3, then display, cursor and blink below it (R27). -/
theorem ctlValue_eq_bits (k : Ctl) :
    k.value c = 0#4 ++ k.backlight.bit ++ k.display.bit ++ k.cursor.bit ++ k.blink.bit := by
  rcases k with ⟨cursor, display, blink, backlight, direction⟩
  simp only [Ctl.value, h.fBlinkOn_eq, h.fCursorOn_eq, h.fDisplayOn_eq, h.blBit_eq]
  cases cursor <;> cases display <;> cases blink <;> cases backlight <;> rfl

/-- `DISPCTL()` has no bit that depends on the backlight (R89). -/
theorem dispctlByte_eq_bits (r : Regs) :
    dispctlByte c r = 0b00001#5 ++ r.ctl.display.bit ++ r.ctl.cursor.bit ++ r.ctl.blink.bit := by
  rw [dispctlByte, ctlValue_eq_bits h, h.opDispctl_eq]
  exact opDispctl_or_bits _ _ _ _

end specConstants

/-- Settles O34: the two bytes are their bits, of which the direction is none and the backlight is bit 3 of
`CTL.value()` only. -/
theorem aggregateByte : Obligations.AggregateByte := by
  intro c r h
  refine ⟨ctlValue_eq_bits h r.ctl, fun d => rfl, ?_, fun f => ?_, ?_⟩
  · rw [ctlValue_eq_bits h, ctlValue_eq_bits h]
    exact xor_backlightBit _ _ _
  · rw [dispctlByte_eq_bits h, dispctlByte_eq_bits h]
    rfl
  · rw [dispctlByte_eq_bits h]
    exact displayControl_range _ _ _

end Sys2Proof.Machine
end

section
/-! PROOFS. Who writes the registers (10_state.md R20) and the phase (10_state.md R31). -/

namespace Sys2Proof.Machine

/-! ### The registers -/

/-- A step without reset writes registers only where an operation arrives before an event, and before its first event
only from the idle block. -/
theorem step_regs (s t : State) (hr : s.env.resetLine = false) (hstep : step s = .next t) :
    t.cfg = s.cfg ∧ (t.regs = s.regs ∨
      ∃ i idx, t.seq = .running i idx ∧ Enters i idx s.regs t.regs ∧ (idx = 0 → s.seq = .idle)) := by
  rcases hs : s.seq with _ | ⟨i, idx⟩
  · rcases step_idle_outcomes s t hs hr hstep with rfl | ⟨w, code, rfl⟩ | ⟨w, i, _, _, _, rfl⟩
    · exact ⟨rfl, .inl rfl⟩
    · exact ⟨rfl, .inl rfl⟩
    · refine ⟨by simp, ?_⟩
      rcases arrive_operationOf_cases i 0 (s.takeRequest w) with ⟨_, ha⟩ | ⟨_, ha⟩ <;> rw [ha]
      · exact .inr ⟨i, 0, rfl, operationOf_enters i 0 s.regs, fun _ => rfl⟩
      · exact .inl rfl
  · obtain rfl := Host.Outcome.next.inj (hstep.symm.trans (step_running s i idx hs hr))
    rcases perform_outcomes i idx s with ⟨ev, next, hlt, hp⟩ | ⟨ev, e, hp⟩ | hp <;> rw [hp]
    · refine ⟨by simp, ?_⟩
      rcases arrive_operationOf_cases i next (afterEvent ev s) with ⟨_, ha⟩ | ⟨_, ha⟩ <;> rw [ha]
      · refine .inr ⟨i, next, rfl, ?_, fun h0 => absurd h0 (by omega)⟩
        simpa using operationOf_enters i next s.regs
      · exact .inl (by simp)
    · exact ⟨by simp, .inl (by simp)⟩
    · exact ⟨rfl, .inl rfl⟩

/-- Settles O38: the register writes of `Enters`, one case for each of R20's writers. -/
theorem registersHaveTheirWriters : Obligations.RegistersHaveTheirWriters := by
  intro s t hr hstep
  obtain ⟨hcfg, hsame | ⟨i, idx, hseq, henters, hidle⟩⟩ := step_regs s t hr hstep
  · exact ⟨hcfg, .inr (by simp [hsame])⟩
  · refine ⟨hcfg, ?_⟩
    generalize t.regs = r' at henters
    cases henters with
    | nothing => exact .inr (by simp)
    | construct addr cols rows => exact .inl ⟨addr, cols, rows, hseq, hidle rfl⟩
    | display f => exact .inr (by simp [Regs.setDisplay, hidle rfl, hseq])
    | cursor f => exact .inr (by simp [Regs.setCursor, hidle rfl, hseq])
    | blink f => exact .inr (by simp [Regs.setBlink, hidle rfl, hseq])
    | backlight f => exact .inr (by simp [Regs.setBacklight, hidle rfl, hseq])
    | newline text => exact .inr (by simp [hseq])

/-! ### The phase -/

/-- Only the end of an operation may change the phase. -/
theorem arrive_phase (i : Instr) (idx : Nat) (s : State) :
    (arrive (operationOf i) idx s).phase = s.phase ∨
    (((operationOf i).plan s.cfg ((operationOf i).enter idx s.regs)).length ≤ idx ∧
      i.isConstruct = true ∧ (arrive (operationOf i) idx s).seq = .idle ∧
      (arrive (operationOf i) idx s).phase = .ready ∧ (arrive (operationOf i) idx s).result = .ok) := by
  rcases arrive_operationOf_cases i idx s with ⟨_, h⟩ | ⟨hle, h⟩ <;> rw [h]
  · exact .inl rfl
  · rcases hi : i.isConstruct
    · exact .inl (by simp [operationOf_phaseOk, hi])
    · exact .inr ⟨hle, rfl, by simp [operationOf_phaseOk, hi]⟩

theorem eventCount_pos_of_isConstruct (i : Instr) (h : i.isConstruct = true) : 0 < i.eventCount := by
  obtain ⟨addr, cols, rows, rfl⟩ := eq_construct_of_isConstruct i h
  exact Nat.zero_lt_succ 57

/-- Accepting a request changes no phase: `CONSTRUCT` has events. -/
theorem arrive_start_phase (i : Instr) (hwf : i.wf = true) (s : State) :
    (arrive (operationOf i) 0 s).phase = s.phase := by
  rcases arrive_phase i 0 s with h | ⟨hle, hi, _⟩
  · exact h
  · have hpos := eventCount_pos_of_isConstruct i hi
    rw [length_plan i hwf] at hle
    omega

/-- An operation in progress changes the phase only as the end of a `CONSTRUCT` (R204, R205). -/
theorem perform_phase (i : Instr) (idx : Nat) (s : State) :
    (perform (operationOf i) idx s).phase = s.phase ∨
    (i.isConstruct = true ∧ (perform (operationOf i) idx s).seq = .idle ∧
      (((perform (operationOf i) idx s).phase = .ready ∧ (perform (operationOf i) idx s).result = .ok) ∨
       ((perform (operationOf i) idx s).phase = .failed ∧
          ∃ e, (perform (operationOf i) idx s).result = .err e))) := by
  rcases perform_outcomes i idx s with ⟨ev, next, _, hp⟩ | ⟨ev, e, hp⟩ | hp <;> rw [hp]
  · rcases arrive_phase i next (afterEvent ev s) with h | ⟨_, hi, hseq, hend⟩
    · exact .inl (by simpa using h)
    · exact .inr ⟨hi, hseq, .inl hend⟩
  · rcases hi : i.isConstruct
    · exact .inl (by simp [operationOf_phaseErr, hi])
    · exact .inr ⟨rfl, rfl, .inr ⟨by simp [operationOf_phaseErr, hi], e, rfl⟩⟩
  · rcases hi : i.isConstruct
    · exact .inl (by simp [operationOf_phaseOk, hi])
    · exact .inr ⟨rfl, rfl, .inl ⟨by simp [operationOf_phaseOk, hi], rfl⟩⟩

/-- Settles O39: the idle step changes no phase, and a step of an operation in progress only as the end of a
`CONSTRUCT`. -/
theorem phaseChangesOnlyByConstruct : Obligations.PhaseChangesOnlyByConstruct := by
  intro s t hr hstep
  rcases hs : s.seq with _ | ⟨i, idx⟩
  · rcases step_idle_outcomes s t hs hr hstep with rfl | ⟨w, code, rfl⟩ | ⟨w, i, hwf, _, _, rfl⟩
    · exact .inl rfl
    · exact .inl rfl
    · exact .inl (arrive_start_phase i hwf (s.takeRequest w))
  · obtain rfl := Host.Outcome.next.inj (hstep.symm.trans (step_running s i idx hs hr))
    rcases perform_phase i idx s with h | ⟨hi, hidle, hend⟩
    · exact .inl h
    · obtain ⟨addr, cols, rows, rfl⟩ := eq_construct_of_isConstruct i hi
      exact .inr ⟨addr, cols, rows, idx, rfl, hidle, hend⟩

end Sys2Proof.Machine
end

section
/-! PROOFS. The event a step records, and what every bus write carries (20_memory.md R52, 10_state.md R29). -/

namespace Sys2Proof.Machine

/-- A `perform` that records an entry has performed the event of its index. -/
theorem perform_records (o : Operation) (idx : Nat) (s : State) (e : Entry)
    (h : (perform o idx s).env.trace = s.env.trace ++ [e]) :
    ∃ m, (o.plan s.cfg s.regs)[idx]? = some m ∧
      (afterEvent (eventOf s.cfg s.regs m) s).env.trace = s.env.trace ++ [e] := by
  rcases hm : (o.plan s.cfg s.regs)[idx]? with _ | m
  · simp [perform, hm] at h
  · refine ⟨m, rfl, h ▸ ?_⟩
    rw [perform_at o idx s m hm]
    rcases errorOf (eventOf s.cfg s.regs m) s <;> simp

/-- A step that records an entry has performed the next event of the operation in progress (R32). -/
theorem step_records (s t : State) (e : Entry) (hstep : step s = .next t)
    (htrace : t.env.trace = s.env.trace ++ [e]) :
    ∃ op idx m, s.seq = .running op idx ∧ ((operationOf op).plan s.cfg s.regs)[idx]? = some m ∧
      (afterEvent (eventOf s.cfg s.regs m) s).env.trace = s.env.trace ++ [e] := by
  by_cases hquiet : s.env.resetLine = true ∨ s.seq = .idle
  · obtain ⟨t', hstep', hsame, _⟩ := step_of_reset_or_idle_records s hquiet
    obtain rfl := Host.Outcome.next.inj (hstep.symm.trans hstep')
    simp [hsame] at htrace
  · obtain ⟨hr, hbusy⟩ := not_or.mp hquiet
    rcases hs : s.seq with _ | ⟨op, idx⟩
    · exact absurd hs hbusy
    · obtain rfl := Host.Outcome.next.inj (hstep.symm.trans (step_running s op idx hs (by simpa using hr)))
      obtain ⟨m, hm, hafter⟩ := perform_records (operationOf op) idx s e htrace
      exact ⟨op, idx, m, rfl, hm, hafter⟩

/-- Settles O35: the write is `EXPANDER_WRITE` of some datum, to `ADDR` and with `bl()` OR-ed in (R120). -/
theorem everyWriteCarriesAddressAndBacklight : Obligations.EveryWriteCarriesAddressAndBacklight := by
  intro s t a v x hstep htrace
  obtain ⟨op, idx, m, -, -, hafter⟩ := step_records s t _ hstep htrace
  cases m with
  | out data =>
    obtain ⟨⟨rfl, rfl⟩, -⟩ : (s.regs.addr = a ∧ data ||| bl s.cfg s.regs = v) ∧ s.env.nextAnswer = x := by
      simpa [eventOf] using hafter
    exact ⟨rfl, by rw [BitVec.or_assoc, BitVec.or_self]⟩
  | dms n => simp [eventOf] at hafter
  | dus n => simp [eventOf] at hafter

end Sys2Proof.Machine
end

section
/-! PROOFS. What accepted transfers make the controller latch (20_memory.md R53, R55; 30_encoding.md R80, R81,
R92, R93). -/

namespace Sys2Proof.Machine

/-- Events as the record shows them when nothing fails. -/
abbrev accepted (evs : List Event) : List Entry := evs.map fun ev => ⟨ev, .ok⟩

theorem accepted_byteEvents (c : Config) (r : Regs) (data : Byte) (role : Role) :
    accepted (byteEvents c r data role) =
      accepted (nibbleEvents c r (hiNibble data ||| roleTag c role)) ++
        accepted (nibbleEvents c r (loNibble data ||| roleTag c role)) :=
  List.map_append

/-- A mask of four ones keeps a nibble. -/
theorem and_nibbleMask (x : BitVec 4) : x &&& 0xF#4 = x := BitVec.and_allOnes

section specConstants

variable {c : Config} (h : c.SpecConstants)
include h

/-! ### The bits of a wire byte that the controller sees -/

theorem bl_eq_zero_or_bit3 (r : Regs) : bl c r = 0x00 ∨ bl c r = 0x08 := by
  rw [bl, h.blBit_eq]
  cases r.ctl.backlight
  · exact .inl rfl
  · exact .inr rfl

/-- The backlight bit is not the enable line. -/
theorem enableLine_or_bl (r : Regs) (v : Byte) : enableLine (v ||| bl c r) = enableLine v := by
  rcases bl_eq_zero_or_bit3 h r with hb | hb <;> simp [hb, enableLine]

/-- The backlight bit is no line that is latched. -/
theorem latchOf_or_bl (r : Regs) (v : Byte) : Latch.of (v ||| bl c r) = Latch.of v := by
  rcases bl_eq_zero_or_bit3 h r with hb | hb <;> simp [hb, Latch.of, BitVec.extractLsb'_or]

theorem enableLine_or_enBit (v : Byte) : enableLine (v ||| c.enBit) = true := by
  simp [h.enBit_eq, enableLine]

theorem enableLine_and_not_enBit (v : Byte) : enableLine (v &&& ~~~c.enBit) = false := by
  simp [h.enBit_eq, enableLine]

theorem latchOf_and_not_enBit (v : Byte) : Latch.of (v &&& ~~~c.enBit) = Latch.of v := by
  simp [h.enBit_eq, Latch.of, BitVec.extractLsb'_and, and_nibbleMask]

theorem enableLine_or_roleTag (v : Byte) (role : Role) :
    enableLine (v ||| roleTag c role) = enableLine v := by
  cases role <;> simp [roleTag, h.rsBit_eq, enableLine]

theorem latchOf_hiNibble (data : Byte) (role : Role) :
    Latch.of (hiNibble data ||| roleTag c role) = ⟨data.extractLsb' 4 4, role == .registerSelect⟩ := by
  cases role <;>
    simp [Latch.of, hiNibble, roleTag, h.rsBit_eq, BitVec.extractLsb'_or, BitVec.extractLsb'_and, and_nibbleMask]

theorem latchOf_loNibble (data : Byte) (role : Role) :
    Latch.of (loNibble data ||| roleTag c role) = ⟨data.extractLsb' 0 4, role == .registerSelect⟩ := by
  have hshift : (data <<< 4).extractLsb' 4 4 = data.extractLsb' 0 4 := by
    ext i hi
    simp [show 4 + i < 8 by omega, BitVec.getLsbD_eq_getElem (show i < 8 by omega)]
  cases role <;>
    simp [Latch.of, loNibble, roleTag, h.rsBit_eq, BitVec.extractLsb'_or, BitVec.extractLsb'_and, hshift,
      and_nibbleMask]

/-! ### One nibble transfer -/

/-- A nibble transfer ends with its enable-low write (R93). -/
theorem enableLine_linesFrom_nibbleEvents (r : Regs) (v : Byte) (u : Nat → Byte) (k : Nat) (before : Byte) :
    enableLine (linesFrom u r.addr k before (accepted (nibbleEvents c r v))) = false := by
  simp [nibbleEvents, linesFrom, enableLine_or_bl h, enableLine_and_not_enBit h]

/-- A nibble transfer latches its nibble at the end of its pulse, and once more at its first write where enable stood
high (R93, R243). -/
theorem latchesFrom_nibbleEvents (r : Regs) (v : Byte) (hv : enableLine v = false) (u : Nat → Byte) (k : Nat)
    (before : Byte) :
    latchesFrom u r.addr k before (accepted (nibbleEvents c r v)) =
      (if enableLine before then [Latch.of v] else []) ++ [Latch.of v] := by
  have hfirst : edge before (v ||| bl c r) = if enableLine before then [Latch.of v] else [] := by
    simp [edge, enableLine_or_bl h, latchOf_or_bl h, hv]
  have hrise : edge (v ||| bl c r) (v ||| c.enBit ||| bl c r) = [] :=
    edge_of_low _ _ ((enableLine_or_bl h r v).trans hv)
  have hfall : edge (v ||| c.enBit ||| bl c r) (v &&& ~~~c.enBit ||| bl c r) = [Latch.of v] := by
    rw [edge_falling _ _ ((enableLine_or_bl h r _).trans (enableLine_or_enBit h v))
      ((enableLine_or_bl h r _).trans (enableLine_and_not_enBit h v)), latchOf_or_bl h, latchOf_and_not_enBit h]
  simp [nibbleEvents, latchesFrom, hfirst, hrise, hfall]

/-! ### One logical byte -/

theorem enableLine_linesFrom_byteEvents (r : Regs) (data : Byte) (role : Role) (u : Nat → Byte) (k : Nat)
    (before : Byte) : enableLine (linesFrom u r.addr k before (accepted (byteEvents c r data role))) = false := by
  rw [accepted_byteEvents, linesFrom_append]
  exact enableLine_linesFrom_nibbleEvents h r _ u _ _

/-- A byte latches its high nibble, and from the lines its first transfer left low its low nibble (R55, R81). -/
theorem latchesFrom_byteEvents (r : Regs) (data : Byte) (role : Role) (u : Nat → Byte) (k : Nat) (before : Byte) :
    latchesFrom u r.addr k before (accepted (byteEvents c r data role)) =
      (if enableLine before then (latchesOfByte data role).take 1 else []) ++ latchesOfByte data role := by
  have hhi : enableLine (hiNibble data ||| roleTag c role) = false := by
    rw [enableLine_or_roleTag h]; simp [enableLine, hiNibble]
  have hlo : enableLine (loNibble data ||| roleTag c role) = false := by
    rw [enableLine_or_roleTag h]; simp [enableLine, loNibble]
  rw [accepted_byteEvents, latchesFrom_append, latchesFrom_nibbleEvents h r _ hhi,
    latchesFrom_nibbleEvents h r _ hlo, enableLine_linesFrom_nibbleEvents h, latchOf_hiNibble h, latchOf_loNibble h]
  simp [latchesOfByte]

end specConstants

/-- Settles O40: the latches of the two nibble transfers, the second from lines that the first left low. -/
theorem oneByteIsTwoLatches : Obligations.OneByteIsTwoLatches := by
  intro c r data role u k before h
  exact ⟨latchesFrom_byteEvents h r data role u k before, enableLine_linesFrom_byteEvents h r data role u k before⟩

end Sys2Proof.Machine
end

section
/-! PROOFS. The decoder accepts only what the encoder writes (30_encoding.md R84, R94 to R98, R214). -/

namespace Sys2Proof

/-! ### Host words -/

/-- What the decoder of a host word accepts (R94, R97, R99). -/
theorem decodeHost_ok_iff (w : BitVec 32) (payload : List Byte) (i : Instr) :
    decodeHost w payload = .ok i ↔ payload.length = hostPayloadLength w ∧ hostZero w = 0 ∧
      decodeHostFields (hostOp w).toNat (hostX w) (hostY w) (hostZ w) payload = .ok i := by
  unfold decodeHost
  split_ifs with hlen hzero
  · exact iff_of_false nofun fun ⟨hlength, _⟩ => hlen hlength
  · exact iff_of_false nofun fun ⟨_, hz, _⟩ => hzero hz
  · simp only [not_not.mp hlen, not_not.mp hzero, true_and]

/-- What a `SET_*` word is accepted as (R95, R99). -/
theorem decodeSet_ok_iff (make : Flag → Instr) (x y z : Byte) (i : Instr) :
    decodeSet make x y z = .ok i ↔ x = 0 ∧ y = 0 ∧ ∃ f : Flag, f.field = z ∧ make f = i := by
  constructor
  · intro h
    unfold decodeSet at h
    split at h
    next hxy =>
      obtain ⟨hx, hy⟩ := hxy
      rcases hz : decodeFlag z with _ | f
      · simp [hz, Except.map] at h
      · exact ⟨hx, hy, f, field_of_decodeFlag z f hz, by simpa [hz, Except.map] using h⟩
    · cases h
  · rintro ⟨rfl, rfl, f, rfl, rfl⟩
    simp [decodeSet, Except.map]

/-- `addr` has the low seven bits of its field, bit 23 being zero (R95). -/
theorem zero_append_setWidth_of_msb (x : Byte) (h : x.msb = false) : 0#1 ++ x.setWidth 7 = x := by
  have hx := BitVec.cons_msb_setWidth (w := 7) x
  rwa [h] at hx

/-- `len` is `{y, z}` (R97). -/
theorem encodeWord_print (text : List Byte) (y z : Byte) (h : text.length = 256 * y.toNat + z.toNat) :
    encodeWord (.print text) = .host (hostWord 0xA 0 y z) := by
  have hz := z.isLt
  have hhigh : text.length / 256 = y.toNat := by omega
  have hlow : text.length % 256 = z.toNat := by omega
  simp [encodeWord, hhigh, hlow]

/-- The fields and the payload of a host word that decodes are the ones the encoder writes. -/
theorem encode_of_decodeHostFields (op : Nat) (x y z : Byte) (payload : List Byte) (i : Instr)
    (hlen : payload.length = hostPayloadLength (hostWord (.ofNat 4 op) x y z))
    (h : decodeHostFields op x y z payload = .ok i) :
    encode i = (.host (hostWord (.ofNat 4 op) x y z), payload) := by
  -- `split` numbers the arms as the `op` field does: `h_1` is `CONSTRUCT`, `h_11` is `WRITE`, `h_12` is illegal.
  unfold decodeHostFields at h
  split at h
  case h_1 =>
    obtain rfl : payload = [] := by simpa [hostPayloadLength] using hlen
    split at h
    · cases h
    next hmsb =>
      cases h
      simp [encode, encodeWord, encodePayload, zero_append_setWidth_of_msb x (by simpa using hmsb)]
  case h_2 | h_3 | h_4 | h_11 =>
    obtain rfl : payload = [] := by simpa [hostPayloadLength] using hlen
    split at h <;> cases h
    next hunused => simp [encode, encodeWord, encodePayload, hunused]
  case h_5 =>
    split at h <;> cases h
    next hunused => simp [encode, encodeWord, encodePayload, hunused]
  case h_6 | h_7 | h_8 | h_9 =>
    obtain rfl : payload = [] := by simpa [hostPayloadLength] using hlen
    obtain ⟨rfl, rfl, f, rfl, rfl⟩ := (decodeSet_ok_iff _ x y z i).mp h
    rfl
  case h_10 =>
    split at h <;> cases h
    next hx =>
      have htext : payload.length = 256 * y.toNat + z.toNat := by simpa [hostPayloadLength] using hlen
      exact Prod.ext (hx ▸ encodeWord_print payload y z htext) rfl
  case h_12 => cases h

theorem encode_of_decodeHost (w : BitVec 32) (payload : List Byte) (i : Instr)
    (h : decodeHost w payload = .ok i) : encode i = (.host w, payload) := by
  obtain ⟨hlen, hzero, hfields⟩ := (decodeHost_ok_iff w payload i).mp h
  have hw : hostWord (.ofNat 4 (hostOp w).toNat) (hostX w) (hostY w) (hostZ w) = w := by
    simpa using hostWord_of_fields w hzero
  have henc := encode_of_decodeHostFields _ _ _ _ payload i (by rw [hw]; exact hlen) hfields
  rwa [hw] at henc

/-! ### Transport words -/

theorem encode_of_decodeTransport (w : BitVec 12) (i : Instr) (h : decodeTransport w = .ok i) :
    encode i = (.transport w, []) := by
  obtain ⟨⟨⟨top, htop⟩⟩, ⟨⟨role, hrole⟩⟩, data, rfl⟩ :
      ∃ top role data, w = transportWord top role data :=
    ⟨_, _, _, (transportWord_of_fields w).symm⟩
  simp only [decodeTransport, transportTop_transportWord, transportRole_transportWord,
    transportData_transportWord, BitVec.toNat_ofFin] at h
  split at h
  case h_1 | h_2 | h_3 =>
    split at h <;> cases h
    next hzero => subst hzero; rfl
  case h_4 h0 h1 h2 =>
    obtain rfl : top = 3 := by simp only [imp_false] at h0 h1 h2; omega
    split at h <;> cases h <;> rfl

/-! ### Command bytes -/

/-- The byte with the given bits, bit 7 first. -/
def byteOfBits (b7 b6 b5 b4 b3 b2 b1 b0 : Bool) : Byte :=
  BitVec.ofBool b7 ++ BitVec.ofBool b6 ++ BitVec.ofBool b5 ++ BitVec.ofBool b4 ++
    BitVec.ofBool b3 ++ BitVec.ofBool b2 ++ BitVec.ofBool b1 ++ BitVec.ofBool b0

theorem byteOfBits_getLsbD (b : Byte) :
    byteOfBits (b.getLsbD 7) (b.getLsbD 6) (b.getLsbD 5) (b.getLsbD 4) (b.getLsbD 3) (b.getLsbD 2)
      (b.getLsbD 1) (b.getLsbD 0) = b := by
  have hb := b.isLt
  apply BitVec.eq_of_toNat_eq
  unfold byteOfBits
  repeat rw [append_toNat]
  simp only [BitVec.toNat_ofBool, BitVec.getLsbD, Nat.toNat_testBit]
  omega

/-! A command byte in terms of its bits: an operand bit chooses its operand as the decoder reads it (R85 to R87). -/

theorem encodeWord_cmdFunctionSet_bits : ∀ w n f : Bool,
    encodeWord (.cmdFunctionSet (if w then .eight else .four) (if n then .two else .one)
      (if f then .dots5x10 else .dots5x8)) = .commandByte (byteOfBits false false true w n f false false) := by
  decide

theorem encodeWord_cmdDisplayControl_bits : ∀ d c b : Bool,
    encodeWord (.cmdDisplayControl (if d then .on else .off) (if c then .on else .off)
      (if b then .on else .off)) = .commandByte (byteOfBits false false false false true d c b) := by
  decide

theorem encodeWord_cmdEntryMode_bits : ∀ i s : Bool,
    encodeWord (.cmdEntryMode (if i then .left else .right) (if s then .on else .off)) =
      .commandByte (byteOfBits false false false false false true i s) := by
  decide

/-- A byte with bit 7 set is the pattern `1aaaaaaa` of its low seven bits (R84). -/
theorem setDdram_pattern (b : Byte) (h7 : b.getLsbD 7 = true) : 0b1#1 ++ b.setWidth 7 = b := by
  have hb := BitVec.cons_msb_setWidth (w := 7) b
  rwa [show b.msb = true from h7] at hb

/-- A byte with bits 7 and 6 `01` is the pattern `01aaaaaa` of its low six bits (R84). -/
theorem setCgram_pattern (b : Byte) (h7 : ¬ b.getLsbD 7 = true) (h6 : b.getLsbD 6 = true) :
    0b01#2 ++ b.setWidth 6 = b := by
  have hb := b.isLt
  simp only [BitVec.getLsbD, Nat.testBit_eq_decide_div_mod_eq, decide_eq_true_iff] at h7 h6
  apply BitVec.eq_of_toNat_eq
  rw [append_toNat, BitVec.toNat_setWidth]
  simp only [BitVec.toNat_ofNat]
  omega

theorem lowBits_eq_false_of_extractLsb' (b : Byte) (h : b.extractLsb' 0 2 = 0) :
    b.getLsbD 1 = false ∧ b.getLsbD 0 = false :=
  ⟨by simpa using congrArg (BitVec.getLsbD · 1) h, by simpa using congrArg (BitVec.getLsbD · 0) h⟩

/-- The opcode of a command byte is its highest set bit (R84): the cases go down from bit 7, and with the bits read on
the way down the byte is its table pattern. -/
theorem encodeWord_of_decodeCommandByte (b : Byte) (i : Instr) (h : decodeCommandByte b = .ok i) :
    encodeWord i = .commandByte b := by
  have hbits := byteOfBits_getLsbD b
  unfold decodeCommandByte flagBit at h
  split at h
  next h7 =>
    cases h
    exact congrArg _ (setDdram_pattern b h7)
  next h7 =>
  split at h
  next h6 =>
    cases h
    exact congrArg _ (setCgram_pattern b h7 h6)
  next h6 =>
  split at h
  next h5 =>
    split at h
    next hlow =>
      obtain ⟨h1, h0⟩ := lowBits_eq_false_of_extractLsb' b hlow
      cases h
      simp only [h7, h6, h5, h1, h0] at hbits
      exact (encodeWord_cmdFunctionSet_bits _ _ _).trans (congrArg _ hbits)
    next => cases h
  next h5 =>
  split at h
  next => cases h
  next h4 =>
  split at h
  next h3 =>
    cases h
    simp only [h7, h6, h5, h4, h3] at hbits
    exact (encodeWord_cmdDisplayControl_bits _ _ _).trans (congrArg _ hbits)
  next h3 =>
  split at h
  next h2 =>
    cases h
    simp only [h7, h6, h5, h4, h3, h2] at hbits
    exact (encodeWord_cmdEntryMode_bits _ _).trans (congrArg _ hbits)
  next =>
  split at h
  next hb => cases h; exact congrArg _ hb.symm
  next =>
  split at h
  next hb => cases h; exact congrArg _ hb.symm
  next => cases h

theorem encode_of_encodeWord_commandByte (i : Instr) (b : Byte) (h : encodeWord i = .commandByte b) :
    encode i = (.commandByte b, []) := by
  have hpayload : encodePayload i = [] := by
    cases i
    case createChar | print => cases h
    all_goals rfl
  exact Prod.ext h hpayload

theorem encode_of_decodeCommandByte (b : Byte) (i : Instr) (h : decodeCommandByte b = .ok i) :
    encode i = (.commandByte b, []) :=
  encode_of_encodeWord_commandByte i b (encodeWord_of_decodeCommandByte b i h)

/-! ### Every word -/

/-- Whatever the decoder accepts is what the encoder writes. -/
theorem encode_of_decode (w : PortWord) (payload : List Byte) (i : Instr) (h : decode w payload = .ok i) :
    encode i = (w, payload) := by
  cases w with
  | host w => exact encode_of_decodeHost w payload i h
  | transport w =>
    simp only [decode] at h
    split at h
    next hnil => exact hnil ▸ encode_of_decodeTransport w i h
    next => cases h
  | commandByte b =>
    simp only [decode] at h
    split at h
    next hnil => exact hnil ▸ encode_of_decodeCommandByte b i h
    next => cases h

/-- Settles O2: what is accepted is well-formed, and the encoder writes the word and payload it was read from. -/
theorem encodeOfDecode : Obligations.EncodeOfDecode := by
  intro w payload i h
  exact ⟨Machine.wf_of_decode w payload i h, encode_of_decode w payload i h⟩

/-- The encoder writes host words for the host operations only (R95, R214). -/
theorem isHost_of_encodeWord (i : Instr) (w : BitVec 32) (h : encodeWord i = .host w) : i.isHost = true := by
  cases i
  case construct | clear | home | setCursorPosition | createChar | setDisplay | setCursor | setBlink |
    setBacklight | print | write => rfl
  all_goals cases h

/-- Settles O5: a host word that decodes is the encoder's, which writes host words for host operations only. -/
theorem hostWordsAreHostOperations : Obligations.HostWordsAreHostOperations := by
  intro w payload i h
  exact isHost_of_encodeWord i w (congrArg Prod.fst (encode_of_decode (.host w) payload i h))

end Sys2Proof
end

section
/-! PROOFS. The decoder reads back what the encoder writes (30_encoding.md R84, R94 to R98, R111). -/

namespace Sys2Proof

/-- The payload of every well-formed request is as long as its word says (R97). -/
theorem encode_payloadFits : ∀ i : Instr, Laws.PayloadFits.Statement i
  | .construct addr cols rows => Laws.PayloadFits.construct addr cols rows
  | .clear => Laws.PayloadFits.clear
  | .home => Laws.PayloadFits.home
  | .setCursorPosition col row => Laws.PayloadFits.setCursorPosition col row
  | .createChar location bitmap => Laws.PayloadFits.createChar location bitmap
  | .setDisplay f => Laws.PayloadFits.setDisplay f
  | .setCursor f => Laws.PayloadFits.setCursor f
  | .setBlink f => Laws.PayloadFits.setBlink f
  | .setBacklight f => Laws.PayloadFits.setBacklight f
  | .print text => Laws.PayloadFits.print text
  | .write b => Laws.PayloadFits.write b
  | .expanderWrite data => Laws.PayloadFits.expanderWrite data
  | .pulseEnable data => Laws.PayloadFits.pulseEnable data
  | .write4bits value => Laws.PayloadFits.write4bits value
  | .send data role => Laws.PayloadFits.send data role
  | .command data => Laws.PayloadFits.command data
  | .cmdClear => Laws.PayloadFits.cmdClear
  | .cmdHome => Laws.PayloadFits.cmdHome
  | .cmdEntryMode d s => Laws.PayloadFits.cmdEntryMode d s
  | .cmdDisplayControl d c b => Laws.PayloadFits.cmdDisplayControl d c b
  | .cmdFunctionSet w n f => Laws.PayloadFits.cmdFunctionSet w n f
  | .cmdSetCgram a => Laws.PayloadFits.cmdSetCgram a
  | .cmdSetDdram a => Laws.PayloadFits.cmdSetDdram a

theorem decodeTransport_of_encodeWord (i : Instr) (w : BitVec 12) (h : encodeWord i = .transport w) :
    decodeTransport w = .ok i.canonical := by
  cases i
  case expanderWrite | pulseEnable | write4bits | command =>
    cases h
    simp [decodeTransport, Instr.canonical, Role.field]
  case send data role =>
    cases h
    cases role <;> simp [decodeTransport, Instr.canonical, Role.field]
  all_goals cases h

theorem decodeCommandByte_setCgram (a : BitVec 6) :
    decodeCommandByte (0b01#2 ++ a) = .ok (.cmdSetCgram a) := by
  have h7 : (0b01#2 ++ a : Byte).getLsbD 7 = false := by rw [BitVec.getLsbD_append]; simp
  have h6 : (0b01#2 ++ a : Byte).getLsbD 6 = true := by rw [BitVec.getLsbD_append]; simp
  have ha : (0b01#2 ++ a : Byte).setWidth 6 = a := BitVec.setWidth_append_eq_right
  simp [decodeCommandByte, -BitVec.getLsbD_eq_getElem, h7, h6, ha]

theorem decodeCommandByte_setDdram (a : BitVec 7) :
    decodeCommandByte (0b1#1 ++ a) = .ok (.cmdSetDdram a) := by
  have h7 : (0b1#1 ++ a : Byte).getLsbD 7 = true := by rw [BitVec.getLsbD_append]; simp
  have ha : (0b1#1 ++ a : Byte).setWidth 7 = a := BitVec.setWidth_append_eq_right
  simp [decodeCommandByte, -BitVec.getLsbD_eq_getElem, h7, ha]

/-- Settles O1: a host word has the payload length and the fields it was written from, a transport word its fields, a
command byte its bits. -/
theorem decodeOfEncode : Obligations.DecodeOfEncode := by
  intro i hwf
  have hfits := encode_payloadFits i hwf
  cases i
  case construct | clear | home | setCursorPosition | createChar | print | write =>
    refine (decodeHost_ok_iff _ _ _).mpr ⟨hfits, hostZero_hostWord _ _ _ _, ?_⟩
    simp [decodeHostFields, encode, encodePayload, Instr.canonical]
  case setDisplay f | setCursor f | setBlink f | setBacklight f =>
    refine (decodeHost_ok_iff _ _ _).mpr ⟨hfits, hostZero_hostWord _ _ _ _, ?_⟩
    simp only [hostOp_hostWord, hostX_hostWord, hostY_hostWord, hostZ_hostWord]
    exact (decodeSet_ok_iff _ _ _ _ _).mpr ⟨rfl, rfl, f, rfl, rfl⟩
  case expanderWrite | pulseEnable | write4bits | send | command =>
    exact decodeTransport_of_encodeWord _ _ rfl
  case cmdClear | cmdHome => rfl
  case cmdEntryMode d s => cases d <;> cases s <;> rfl
  case cmdDisplayControl d c b => cases d <;> cases c <;> cases b <;> rfl
  case cmdFunctionSet w n f => cases w <;> cases n <;> cases f <;> rfl
  case cmdSetCgram a => exact decodeCommandByte_setCgram a
  case cmdSetDdram a => exact decodeCommandByte_setDdram a

/-- Settles O4, by running the decoder on the seven words. -/
theorem specWordsDecode : Obligations.SpecWordsDecode := by
  unfold Obligations.SpecWordsDecode
  decide

end Sys2Proof
end

section
/-! PROOFS. The illegal words (30_encoding.md R99) and what the block answers to them (60_exceptions.md R211). -/

namespace Sys2Proof

theorem forall_ite_ok_ne_iff (p : Prop) [Decidable p] (j : Instr) (e : Reject) :
    (∀ i, (if p then .ok j else .error e : Except Reject Instr) ≠ .ok i) ↔ ¬ p := by
  by_cases hp : p <;> simp [hp]

theorem forall_ite_error_ne_iff (p : Prop) [Decidable p] (j : Instr) (e : Reject) :
    (∀ i, (if p then .error e else .ok j : Except Reject Instr) ≠ .ok i) ↔ p := by
  by_cases hp : p <;> simp [hp]

/-- The two flag fields, 0 and 1, are those with bits 7..1 zero (R96, R99). -/
theorem exists_field_iff (z : Byte) : (∃ f : Flag, f.field = z) ↔ z.extractLsb' 1 7 = 0 := by
  constructor
  · rintro ⟨f, rfl⟩
    cases f <;> rfl
  · intro h
    have hhalf : z.toNat / 2 % 128 = 0 := (extract_toNat z 1 7).symm.trans (congrArg BitVec.toNat h)
    have hz := z.isLt
    rcases (by omega : z.toNat = 0 ∨ z.toNat = 1) with h0 | h1
    · exact ⟨.off, BitVec.eq_of_toNat_eq h0.symm⟩
    · exact ⟨.on, BitVec.eq_of_toNat_eq h1.symm⟩

theorem decodeSet_refuses_iff (make : Flag → Instr) (x y z : Byte) :
    (∀ i, decodeSet make x y z ≠ .ok i) ↔ x ≠ 0 ∨ y ≠ 0 ∨ z.extractLsb' 1 7 ≠ 0 := by
  have haccepts : (∃ i, decodeSet make x y z = .ok i) ↔ x = 0 ∧ y = 0 ∧ ∃ f : Flag, f.field = z := by
    simp [decodeSet_ok_iff]
  rw [← not_exists, haccepts, exists_field_iff, not_and_or, not_and_or]

/-- The conditions of R99 on the operation and operand fields. -/
theorem decodeHostFields_refuses_iff (op : Nat) (x y z : Byte) (payload : List Byte) :
    (∀ i, decodeHostFields op x y z payload ≠ .ok i) ↔
      op = 0x0 ∨ 0xC ≤ op ∨
      (op = 0x1 ∧ x.msb = true) ∨
      ((op = 0x2 ∨ op = 0x3) ∧ (x ≠ 0 ∨ y ≠ 0 ∨ z ≠ 0)) ∨
      ((op = 0x4 ∨ op = 0xA) ∧ x ≠ 0) ∨
      ((op = 0x5 ∨ op = 0xB) ∧ (x ≠ 0 ∨ y ≠ 0)) ∨
      ((op = 0x6 ∨ op = 0x7 ∨ op = 0x8 ∨ op = 0x9) ∧ (x ≠ 0 ∨ y ≠ 0 ∨ z.extractLsb' 1 7 ≠ 0)) := by
  unfold decodeHostFields
  split
  case h_1 => simp [forall_ite_error_ne_iff]
  case h_2 | h_3 | h_4 | h_5 | h_10 | h_11 => simp [forall_ite_ok_ne_iff, -not_and, not_and_or]
  case h_6 | h_7 | h_8 | h_9 => simp [decodeSet_refuses_iff]
  case h_12 =>
    simp only [imp_false] at *
    refine iff_of_true nofun ?_
    rcases (by omega : op = 0x0 ∨ 0xC ≤ op) with hzero | hlarge
    · exact .inl hzero
    · exact .inr (.inl hlarge)

theorem illegalHostWord_iff (w : BitVec 32) (payload : List Byte)
    (hlen : payload.length = hostPayloadLength w) :
    IllegalHostWord w ↔ ∀ i, decodeHost w payload ≠ .ok i := by
  have hmsb : (hostX w).msb = w.getLsbD 23 := by simp [hostX, BitVec.msb_eq_getLsbD_last]
  have hflag : (hostZ w).extractLsb' 1 7 = w.extractLsb' 1 7 := by
    apply BitVec.eq_of_toNat_eq
    rw [hostZ, extract_toNat, extract_toNat, extract_toNat]
    omega
  have hrefuses : (∀ i, decodeHost w payload ≠ .ok i) ↔ hostZero w ≠ 0 ∨
      ∀ i, decodeHostFields (hostOp w).toNat (hostX w) (hostY w) (hostZ w) payload ≠ .ok i := by
    simp [decodeHost_ok_iff, hlen, imp_iff_not_or, forall_or_left]
  rw [hrefuses, decodeHostFields_refuses_iff, hmsb, hflag, or_left_comm (a := hostZero w ≠ 0),
    or_left_comm (a := hostZero w ≠ 0)]
  rfl

theorem illegalTransportWord_iff (w : BitVec 12) :
    IllegalTransportWord w ↔ ∀ i, decodeTransport w ≠ .ok i := by
  have htop := (transportTop w).isLt
  have hrole := (transportRole w).isLt
  change (transportRole w).toNat = 2 ∨ (transportRole w).toNat = 3 ∨
    ((transportTop w).toNat ≠ 3 ∧ (transportRole w).toNat ≠ 0) ↔ _
  simp only [decodeTransport]
  split
  case h_1 | h_2 | h_3 =>
    rw [forall_ite_ok_ne_iff]
    omega
  case h_4 h0 h1 h2 =>
    simp only [imp_false] at h0 h1 h2
    split
    next => exact iff_of_false (by omega) fun h => h _ rfl
    next => exact iff_of_false (by omega) fun h => h _ rfl
    next hr0 hr1 =>
      simp only [imp_false] at hr0 hr1
      exact iff_of_true (by omega) nofun

end Sys2Proof

namespace Sys2Proof.Machine

/-- An illegal word with its whole payload before it at the ports is taken with exactly that payload (R97, R99). -/
theorem fetch_of_illegal (s : State) (w : PortWord) (rest : List PortWord) (p q : List Byte)
    (hreq : s.env.requests = w :: rest) (hpay : s.env.payload = p ++ q) (hlen : p.length = payloadLength w)
    (hdec : ∀ i, decode w p ≠ .ok i) :
    fetch s = .illegal { s with env := { s.env with requests := rest, payload := q } } := by
  have hall : ¬ s.env.payload.length < payloadLength w := by simp [hpay, ← hlen]
  have htake : s.env.payload.take (payloadLength w) = p := by simp [hpay, ← hlen]
  have hdrop : s.env.payload.drop (payloadLength w) = q := by simp [hpay, ← hlen]
  rcases herr : decode w p with e | i
  · simp [fetch, hreq, hall, htake, herr, State.takeRequest, hdrop]
  · exact absurd herr (hdec i)

theorem step_of_fetch_illegal (s t : State) (h : Idle s) (hf : fetch s = .illegal t) :
    step s = .next (t.refuse .illegalRequest) := by
  obtain ⟨hs, hr⟩ := h
  simp [step, hs, hr, hf]

/-- Settles O3: the conditions of R99 field by field, and the step on a word that the fetch finds illegal. -/
theorem illegalWordsAreRefused : Obligations.IllegalWordsAreRefused := by
  refine ⟨illegalHostWord_iff, fun w => ?_, ?_⟩
  · simpa [decode] using illegalTransportWord_iff w
  · intro s w rest p q hidle hreq hpay hlen hdec
    have hseq : s.seq = .idle := hidle.1
    rw [step_of_fetch_illegal s _ hidle (fetch_of_illegal s w rest p q hreq hpay hlen hdec)]
    simp [State.finish, hseq]

end Sys2Proof.Machine
end

section
/-! PROOFS. The command bytes: the assembled ones are the table's patterns, the emitted ones are sent
(30_encoding.md R84, R88 to R91; 40_transport.md R124). -/

namespace Sys2Proof.Machine

/-! ### Assembled bytes -/

/-- The low three bits of a location (R91). -/
theorem and_seven_eq_setWidth (x : Byte) : x &&& 0x07 = (x.extractLsb' 0 3).setWidth 8 := by
  apply BitVec.eq_of_toNat_eq
  rw [BitVec.toNat_and, BitVec.toNat_setWidth, extract_toNat]
  exact (Nat.and_two_pow_sub_one_eq_mod x.toNat 3).trans (by omega)

/-- The eight CGRAM slots (R91). -/
theorem opCgram_or_slot : ∀ slot : BitVec 3,
    0x40#8 ||| slot.setWidth 8 <<< 3 = 0b01#2 ++ (slot ++ 0#3 : BitVec 6) := by
  decide

/-- The OR with the opcode 0x80 hides bit 7 of the address (R90). -/
theorem opDdram_or (address : Byte) : 0x80#8 ||| address = 0b1#1 ++ address.setWidth 7 := by
  have hlow : (0x80#8 ||| address).setWidth 7 = address.setWidth 7 := by simp [BitVec.setWidth_or]
  rw [← hlow, setDdram_pattern _ (by simp)]

section specConstants

variable {c : Config} (h : c.SpecConstants)
include h

theorem cgramByte_eq_pattern (location : Byte) :
    cgramByte c location = 0b01#2 ++ (location.extractLsb' 0 3 ++ 0#3 : BitVec 6) := by
  rw [cgramByte, h.opCgram_eq, h.cgramShift_eq, and_seven_eq_setWidth]
  exact opCgram_or_slot _

theorem ddramByte_eq_pattern (r : Regs) (col row : Byte) :
    ddramByte c r col row = 0b1#1 ++ (ddramAddress r col row).setWidth 7 := by
  rw [ddramByte, h.opDdram_eq]
  exact opDdram_or _

end specConstants

/-- Settles O6: the constants put the operand bits where the table's patterns have them. -/
theorem assembledCommandsMatchTheTable : Obligations.AssembledCommandsMatchTheTable := by
  intro c r h
  refine ⟨?_, ?_, ?_, ?_, ?_, ?_, ?_, fun location => ?_, fun col row => ?_⟩
  · rw [h.opClear_eq]; rfl
  · rw [h.opHome_eq]; rfl
  · simp only [fsFull, functionSetByte, widthPattern, linesPattern, fontPattern, h.opFuncset_eq, h.f4Bit_eq,
      h.f2Line_eq, h.f5x8_eq]
    rfl
  · rw [fs8BitNibble, widthPattern, h.opFuncset_eq, h.f8Bit_eq]; rfl
  · rw [fs4BitNibble, widthPattern, h.opFuncset_eq, h.f4Bit_eq]; rfl
  · simp only [entryLtr, entryModeByte, directionPattern, shiftPattern, h.opEntry_eq, h.fEntryLeft_eq,
      h.fShiftOff_eq]
    rfl
  · exact congrArg _ (dispctlByte_eq_bits h r)
  · exact congrArg _ (cgramByte_eq_pattern h location)
  · exact congrArg _ (ddramByte_eq_pattern h r col row)

/-! ### Emitted commands -/

theorem operationOf_of_commandByte (i : Instr) (b : Byte) (h : encodeWord i = .commandByte b) :
    operationOf i = emit i := by
  cases i
  case cmdClear | cmdHome | cmdEntryMode | cmdDisplayControl | cmdFunctionSet | cmdSetCgram | cmdSetDdram =>
    rfl
  all_goals cases h

theorem badConfig_of_commandByte (i : Instr) (b : Byte) (h : encodeWord i = .commandByte b) (c : Config)
    (r : Regs) : i.badConfig c r = false := by
  rw [← operationOf_badConfig, operationOf_of_commandByte i b h]
  rfl

theorem isConstruct_of_commandByte (i : Instr) (b : Byte) (h : encodeWord i = .commandByte b) :
    i.isConstruct = false := by
  cases i
  case construct => cases h
  all_goals rfl

/-- Settles O21: the operation of a CMD row has the plan of `COMMAND` of its byte and no other rule. -/
theorem emittedCommandsAreSent : Obligations.EmittedCommandsAreSent := by
  intro s i b hready hi
  obtain ⟨hphase, hseq, hreset⟩ := hready
  have hop := operationOf_of_commandByte i b hi
  have hbyte : commandByteOf i = b := by simp [commandByteOf, hi]
  have hplan : (operationOf i).plan s.cfg s.regs = command s.cfg b := by rw [hop, ← hbyte]; rfl
  have hcompletes := completes_of_plan i s 10 s.regs hseq hreset (.inr hphase)
    (badConfig_of_commandByte i b hi _ _) (by rw [hop]; rfl) (fun _ _ => by rw [hop]; rfl)
    (fun _ => by rw [hop]; rfl) (by rw [hplan, length_command]) (by decide)
  rwa [isConstruct_of_commandByte i b hi, hplan, map_command] at hcompletes

end Sys2Proof.Machine
end

section
/-! PROOFS. No host operation sets the read/write bit (30_encoding.md R80, R101). -/

namespace Sys2Proof.Machine

/-- A bus write, as an operation gives it, with the read/write bit of R80 clear. -/
def NeverReads : Micro → Prop
  | .out data => data.getLsbD 1 = false
  | .dms _ => True
  | .dus _ => True

theorem dms_neverReads (n : Byte) : ∀ m ∈ [Micro.dms n], NeverReads m := by simp [NeverReads]

section specConstants

variable {c : Config} (h : c.SpecConstants)
include h

theorem bl_bit1 (r : Regs) : (bl c r).getLsbD 1 = false := by
  rcases bl_eq_zero_or_bit3 h r with hb | hb <;> rw [hb] <;> rfl

theorem roleTag_bit1 (role : Role) : (roleTag c role).getLsbD 1 = false := by
  cases role <;> simp [roleTag, h.rsBit_eq]

theorem write4bits_neverReads (v : Byte) (hv : v.getLsbD 1 = false) :
    ∀ m ∈ write4bits c v, NeverReads m := by
  simp [write4bits, pulseEnable, expanderWrite, NeverReads, h.enBit_eq, -BitVec.getLsbD_eq_getElem, hv]

theorem send_neverReads (data : Byte) (role : Role) : ∀ m ∈ send c data role, NeverReads m := by
  have hhi : (hiNibble data ||| roleTag c role).getLsbD 1 = false := by
    simp [hiNibble, -BitVec.getLsbD_eq_getElem, roleTag_bit1 h]
  have hlo : (loNibble data ||| roleTag c role).getLsbD 1 = false := by
    simp [loNibble, -BitVec.getLsbD_eq_getElem, roleTag_bit1 h]
  exact List.forall_mem_append.mpr ⟨write4bits_neverReads h _ hhi, write4bits_neverReads h _ hlo⟩

theorem command_neverReads (data : Byte) : ∀ m ∈ command c data, NeverReads m :=
  send_neverReads h data .command

theorem rawNibble_neverReads (v : Byte) (hv : v.getLsbD 1 = false) :
    ∀ m ∈ rawNibble c v, NeverReads m :=
  List.forall_mem_append.mpr ⟨write4bits_neverReads h v hv, dms_neverReads _⟩

theorem clearBody_neverReads : ∀ m ∈ clearBody c, NeverReads m :=
  List.forall_mem_append.mpr ⟨command_neverReads h _, dms_neverReads _⟩

theorem init_neverReads (r : Regs) : ∀ m ∈ init c r, NeverReads m := by
  have hbacklight : ∀ m ∈ initBacklight c r, NeverReads m :=
    List.forall_mem_append.mpr ⟨List.forall_mem_singleton.mpr (bl_bit1 h r), dms_neverReads _⟩
  have hfs8 : ∀ m ∈ rawNibble c (fs8BitNibble c), NeverReads m :=
    rawNibble_neverReads h _ (by simp [fs8BitNibble, widthPattern, h.opFuncset_eq, h.f8Bit_eq])
  have hfs4 : ∀ m ∈ rawNibble c (fs4BitNibble c), NeverReads m :=
    rawNibble_neverReads h _ (by simp [fs4BitNibble, widthPattern, h.opFuncset_eq, h.f4Bit_eq])
  simp only [init, initPowerWait, initFs8, initFs4, List.forall_mem_append, and_assoc]
  exact ⟨dms_neverReads _, hbacklight, hfs8, hfs8, hfs8, hfs4, command_neverReads h _,
    clearBody_neverReads h, command_neverReads h _⟩

theorem printByte_neverReads (r : Regs) (b : Byte) : ∀ m ∈ printByte c r b, NeverReads m := by
  unfold printByte
  split
  · exact command_neverReads h _
  · exact send_neverReads h b _

/-- Every event of a host operation (R101). -/
theorem plan_neverReads (i : Instr) (hi : i.isHost = true) (r : Regs) :
    ∀ m ∈ (operationOf i).plan c r, NeverReads m := by
  cases i
  case construct => exact init_neverReads h r
  case clear => exact clearBody_neverReads h
  case home => exact List.forall_mem_append.mpr ⟨command_neverReads h _, dms_neverReads _⟩
  case setCursorPosition | setDisplay | setCursor | setBlink => exact command_neverReads h _
  case setBacklight => simp [operationOf, opSetBacklight, expanderWrite, NeverReads]
  case write b => exact send_neverReads h b _
  case createChar location bitmap =>
    refine List.forall_mem_append.mpr ⟨command_neverReads h _, fun m hm => ?_⟩
    obtain ⟨b, -, hb⟩ := List.mem_flatMap.mp hm
    exact send_neverReads h b _ m hb
  case print text =>
    intro m hm
    obtain ⟨b, -, hb⟩ := List.mem_flatMap.mp hm
    exact printByte_neverReads h r b m hb
  all_goals cases hi

end specConstants

/-- The bus write a step records is `EXPANDER_WRITE` of a datum of the operation in progress (R120). -/
theorem step_records_write (s t : State) (a : DevAddr) (v : Byte) (x : Answer) (hstep : step s = .next t)
    (htrace : t.env.trace = s.env.trace ++ [⟨.w a v, x⟩]) :
    ∃ op idx data, s.seq = .running op idx ∧
      ((operationOf op).plan s.cfg s.regs)[idx]? = some (.out data) ∧ v = data ||| bl s.cfg s.regs := by
  obtain ⟨op, idx, m, hseq, hm, hafter⟩ := step_records s t _ hstep htrace
  cases m with
  | out data =>
    obtain ⟨⟨-, hv⟩, -⟩ : (s.regs.addr = a ∧ data ||| bl s.cfg s.regs = v) ∧ s.env.nextAnswer = x := by
      simpa [eventOf] using hafter
    exact ⟨op, idx, data, hseq, hm, hv.symm⟩
  | dms n => simp [eventOf] at hafter
  | dus n => simp [eventOf] at hafter

/-- Settles O36: bit 1 is clear in the datum and in the backlight bit OR-ed into it. -/
theorem hostOperationsNeverRead : Obligations.HostOperationsNeverRead := by
  intro s t op idx a v x h hseq hhost _ hstep htrace
  obtain ⟨op', idx', data, hseq', hdata, rfl⟩ := step_records_write s t a v x hstep htrace
  obtain ⟨rfl, rfl⟩ := Seq.running.inj (hseq.symm.trans hseq')
  have hclear : data.getLsbD 1 = false := plan_neverReads h op hhost s.regs _ (List.mem_of_getElem? hdata)
  rw [BitVec.getLsbD_or, hclear, bl_bit1 h, Bool.or_self]

end Sys2Proof.Machine
end

section
/-! PROOFS. The transport primitives put the wire bytes of their rules on the bus (40_transport.md R120 to R124;
30_encoding.md R92, R93). -/

namespace Sys2Proof.Machine

/-! ### Requests that have a plan and no other rule -/

/-- A request whose operation is its plan alone (every other field at its default): offered to the idle `READY`
block it is accepted, carries out the events of the plan and writes no register. -/
theorem completes_of_plain_operation (i : Instr) (plan : Config → Regs → List Micro) (s : State)
    (hop : operationOf i = { instr := i, plan := plan }) (hready : ReadyIdle s) (hne : plan s.cfg s.regs ≠ []) :
    Completes i s { s with seq := .running i 0 } (plan s.cfg s.regs).length
      (concluded s.phase s.phase (carryOut ((plan s.cfg s.regs).map (eventOf s.cfg s.regs))
        { s with seq := .running i 0 })) := by
  obtain ⟨hphase, hseq, hreset⟩ := hready
  have hconstruct : i.isConstruct = false := by
    have h := operationOf_needsReady i
    rw [hop] at h
    simpa using h.symm
  have hbad : i.badConfig s.cfg s.regs = false := by rw [← operationOf_badConfig, hop]
  have hcompletes := completes_of_plan i s (plan s.cfg s.regs).length s.regs hseq hreset (.inr hphase) hbad
    (by rw [hop]) (fun _ _ => by rw [hop]) (fun _ => by rw [hop]) (by rw [hop]) (List.length_pos_iff.mpr hne)
  rwa [hconstruct, hop] at hcompletes

/-! ### The events of the two smaller primitives -/

theorem map_expanderWrite (c : Config) (r : Regs) (data : Byte) :
    (expanderWrite data).map (eventOf c r) = [.w r.addr (data ||| bl c r)] := rfl

theorem map_pulseEnable (c : Config) (r : Regs) (data : Byte) :
    (pulseEnable c data).map (eventOf c r) =
      [.w r.addr ((data ||| c.enBit) ||| bl c r), .dus c.tEnUs,
       .w r.addr ((data &&& ~~~c.enBit) ||| bl c r), .dus c.tEnUs] := rfl

/-! ### The requests of the internal port -/

/-- Settles O16: the plan is the one `EXPANDER_WRITE`. -/
theorem expanderWriteIsOneWrite : Obligations.ExpanderWriteIsOneWrite := by
  intro s data hready
  have h := completes_of_plain_operation (.expanderWrite data) (fun _ _ => expanderWrite data) s rfl hready
    (List.cons_ne_nil _ _)
  rwa [map_expanderWrite, length_expanderWrite] at h

/-- Settles O17: the plan is the pulse of R121. -/
theorem pulseEnableStrobes : Obligations.PulseEnableStrobes := by
  intro s data hready
  have h := completes_of_plain_operation (.pulseEnable data) (fun c _ => pulseEnable c data) s rfl hready
    (List.cons_ne_nil _ _)
  rwa [map_pulseEnable, length_pulseEnable] at h

/-- Settles O18: the plan is the nibble transfer of R122, whose events are those of R93. -/
theorem write4bitsTransmitsANibble : Obligations.Write4bitsTransmitsANibble := by
  intro s value hready
  have h := completes_of_plain_operation (.write4bits value) (fun c _ => write4bits c value) s rfl hready
    (List.cons_ne_nil _ _)
  rwa [map_write4bits, length_write4bits] at h

/-- Settles O19: the plan is the two nibble transfers of R123. -/
theorem sendTransmitsHighNibbleFirst : Obligations.SendTransmitsHighNibbleFirst := by
  intro s data role hready
  have h := completes_of_plain_operation (.send data role) (fun c _ => send c data role) s rfl hready
    (List.cons_ne_nil _ _)
  rwa [map_send, length_send] at h

/-- Settles O20: the plan is that of `SEND` with role Command. -/
theorem commandIsSendWithCommandRole : Obligations.CommandIsSendWithCommandRole := by
  intro s b hready
  have h := completes_of_plain_operation (.command b) (fun c _ => command c b) s rfl hready
    (List.cons_ne_nil _ _)
  rwa [map_command, length_command] at h

end Sys2Proof.Machine
end

section
/-! PROOFS. Construction and the initialization state machine (41_init.md R140 to R150). -/

namespace Sys2Proof.Machine

/-! ### The events of `INIT` -/

theorem map_rawNibble (c : Config) (r : Regs) (v : Byte) :
    (rawNibble c v).map (eventOf c r) = nibbleEvents c r v ++ [.dms c.tFsMs] := rfl

theorem map_clearBody (c : Config) (r : Regs) :
    (clearBody c).map (eventOf c r) = byteEvents c r c.opClear .command ++ [.dms c.tClearMs] := rfl

/-- The events of the seven steps in order, in the words of R142 to R148. -/
def initEvents (c : Config) (r : Regs) : List Event :=
  let fs8 := nibbleEvents c r (fs8BitNibble c) ++ [.dms c.tFsMs]
  [Event.dms c.tPowerupMs] ++
    [Event.w r.addr (bl c r ||| bl c r), .dms c.tBlMs] ++
    (fs8 ++ fs8 ++ fs8) ++
    (nibbleEvents c r (fs4BitNibble c) ++ [Event.dms c.tFsMs]) ++
    byteEvents c r (fsFull c) .command ++
    (byteEvents c r c.opClear .command ++ [Event.dms c.tClearMs]) ++
    byteEvents c r (entryLtr c) .command

theorem map_init (c : Config) (r : Regs) : (init c r).map (eventOf c r) = initEvents c r := by
  simp only [init, initPowerWait, initBacklight, initFs8, initFs4, List.map_append, map_rawNibble,
    map_command, map_clearBody, map_expanderWrite]
  rfl

/-! ### The request -/

theorem bl_construct (c : Config) (addr : DevAddr) (cols rows : Byte) :
    bl c (Regs.construct addr cols rows) = c.blBit := rfl

/-- The state in which `CONSTRUCT` stands before its first event: every register is loaded (R140, R36). -/
abbrev constructAccepted (s : State) (addr : DevAddr) (cols rows : Byte) : State :=
  { s with regs := Regs.construct addr cols rows, seq := .running (.construct addr cols rows) 0 }

/-- `CONSTRUCT` on the idle block in any phase: the registers are loaded, the events of `INIT` are carried out on
them, and the phase is set at the end (R140, R149, R205). -/
theorem completes_construct (s : State) (addr : DevAddr) (cols rows : Byte) (hidle : Idle s)
    (hbad : Instr.badConfig s.cfg s.regs (.construct addr cols rows) = false) :
    Completes (.construct addr cols rows) s (constructAccepted s addr cols rows) 58
      (concluded .ready .failed (carryOut (initEvents s.cfg (Regs.construct addr cols rows))
        (constructAccepted s addr cols rows))) := by
  obtain ⟨hseq, hreset⟩ := hidle
  have hlater : ∀ idx, 0 < idx → (operationOf (.construct addr cols rows)).enter idx
      (Regs.construct addr cols rows) = Regs.construct addr cols rows := fun idx hpos => by
    rw [enter_construct, atStart_of_pos _ _ _ hpos]
  have h := completes_of_plan (.construct addr cols rows) s 58 (Regs.construct addr cols rows) hseq hreset
    (.inl rfl) hbad rfl hlater (operationOf_resume _ _) (length_init _ _) (by decide)
  rwa [show (operationOf (.construct addr cols rows)).plan = init from rfl, map_init] at h

/-- Settles O22: the events of `INIT` are the statement's list, read on the registers as loaded, whose backlight is On
(`bl_construct`). -/
theorem constructRunsInit : Obligations.ConstructRunsInit :=
  fun s addr cols rows hidle hbad => completes_construct s addr cols rows hidle hbad

/-! ### The table of R150 -/

/-- Role Command adds no bit to the two nibbles (R82, R92). -/
theorem byteEvents_command (c : Config) (r : Regs) (data : Byte) :
    byteEvents c r data .command = nibbleEvents c r (hiNibble data) ++ nibbleEvents c r (loNibble data) := by
  simp [byteEvents, roleTag, hiNibble, loNibble]

section specConstants

variable {c : Config} (h : c.SpecConstants) (addr : DevAddr) (cols rows : Byte)
include h

/-- A nibble transfer with the backlight On: the three wire bytes of R93 with the default constants. -/
theorem nibbleEvents_construct (v : Byte) :
    nibbleEvents c (Regs.construct addr cols rows) v =
      [.w addr (v ||| 0x08), .w addr (v ||| 0x04 ||| 0x08), .dus 1, .w addr (v &&& ~~~0x04 ||| 0x08), .dus 1] := by
  rw [nibbleEvents, bl_construct, h.blBit_eq, h.enBit_eq, h.tEnUs_eq]
  rfl

theorem fs8BitNibble_eq : fs8BitNibble c = 0x30 := by
  rw [fs8BitNibble, widthPattern, h.opFuncset_eq, h.f8Bit_eq]; rfl

theorem fs4BitNibble_eq : fs4BitNibble c = 0x20 := by
  rw [fs4BitNibble, widthPattern, h.opFuncset_eq, h.f4Bit_eq]; rfl

theorem fsFull_eq : fsFull c = 0x28 := by
  simp [fsFull, functionSetByte, widthPattern, linesPattern, fontPattern, h.opFuncset_eq, h.f4Bit_eq, h.f2Line_eq,
    h.f5x8_eq]

theorem entryLtr_eq : entryLtr c = 0x06 := by
  simp [entryLtr, entryModeByte, directionPattern, shiftPattern, h.opEntry_eq, h.fEntryLeft_eq, h.fShiftOff_eq]

theorem fs8Events_eq_rows :
    nibbleEvents c (Regs.construct addr cols rows) (fs8BitNibble c) ++ [.dms c.tFsMs] = initRowsFs8 addr := by
  rw [nibbleEvents_construct h, fs8BitNibble_eq h, h.tFsMs_eq]; rfl

theorem fs4Events_eq_rows :
    nibbleEvents c (Regs.construct addr cols rows) (fs4BitNibble c) ++ [.dms c.tFsMs] = initRowsFs4 addr := by
  rw [nibbleEvents_construct h, fs4BitNibble_eq h, h.tFsMs_eq]; rfl

theorem funcsetEvents_eq_rows :
    byteEvents c (Regs.construct addr cols rows) (fsFull c) .command = initRowsFuncset addr := by
  rw [byteEvents_command, nibbleEvents_construct h, nibbleEvents_construct h, fsFull_eq h]; rfl

theorem clearEvents_eq_rows :
    byteEvents c (Regs.construct addr cols rows) c.opClear .command ++ [.dms c.tClearMs] = initRowsClear addr := by
  rw [byteEvents_command, nibbleEvents_construct h, nibbleEvents_construct h, h.opClear_eq, h.tClearMs_eq]; rfl

theorem entryEvents_eq_rows :
    byteEvents c (Regs.construct addr cols rows) (entryLtr c) .command = initRowsEntry addr := by
  rw [byteEvents_command, nibbleEvents_construct h, nibbleEvents_construct h, entryLtr_eq h]; rfl

theorem initEvents_eq_initTable : initEvents c (Regs.construct addr cols rows) = initTable addr := by
  simp only [initEvents, fs8Events_eq_rows h, fs4Events_eq_rows h, funcsetEvents_eq_rows h, clearEvents_eq_rows h,
    entryEvents_eq_rows h, bl_construct, h.blBit_eq, h.tPowerupMs_eq, h.tBlMs_eq]
  rfl

end specConstants

/-- Settles O23: with the default constants the events of `INIT` are the rows of the table. -/
theorem constructFollowsTheInitTable : Obligations.ConstructFollowsTheInitTable := by
  intro s addr cols rows hidle hspec hbad
  have h := completes_construct s addr cols rows hidle hbad
  rw [initEvents_eq_initTable hspec] at h
  exact ⟨constructAccepted s addr cols rows, rfl, rfl, h⟩

end Sys2Proof.Machine
end

section
/-! PROOFS. An operation run piece by piece: a stretch of its events that begins with the register writes placed before
its first event. `PRINT` and, in swallow mode, `CREATE_CHAR` are loops of such pieces, one per byte (42_commands.md
R163, R165). -/

namespace Sys2Proof.Machine

/-- After a piece: the operation arrives before the event of index `next`, or a failed write is handled by `onErr`. -/
def afterPiece (o : Operation) (next : Nat) (onErr : Err → State → State) : State × Option Err → State
  | (t, none) => arrive o next t
  | (t, some e) => onErr e t

/-- Arriving before an event does not look at `SEQ`. -/
theorem arrive_seq_frame (o : Operation) (idx : Nat) (s : State) (q : Seq) :
    arrive o idx { s with seq := q } = arrive o idx s := rfl

/-- A request that is not refused for its operands is accepted by the idle `READY` block (R211, R36). -/
theorem exec_of_readyIdle (i : Instr) (s : State) (hready : ReadyIdle s) (hbad : i.badConfig s.cfg s.regs = false) :
    exec i s = .next (arrive (operationOf i) 0 s) := by
  obtain ⟨hphase, hidle, -⟩ := hready
  rw [exec_eq_operate, operate_idle _ _ hidle, offer_accepts i s (.inr hphase) hbad]

/-- A failed write that is not caught ends the operation (R203). -/
theorem afterWrite_uncaught (o : Operation) (idx : Nat) (e : Err) (s : State) (h : o.resume s.cfg idx = none) :
    afterWrite o idx (.err e) s = s.finish (.err e) (o.phaseErr s.phase) := by
  simp [afterWrite, h]

/-- A failed write that is caught leads to the event where the operation goes on (R203). -/
theorem afterWrite_caught (o : Operation) (idx next : Nat) (e : Err) (s : State)
    (h : o.resume s.cfg idx = some next) : afterWrite o idx (.err e) s = arrive o next s := by
  simp [afterWrite, h]

/-- One piece `ms` of an operation: from its arrival at index `idx` the machine carries the events of the piece out, on
the registers as they are entered, within its length. -/
theorem run_piece (o : Operation) (ho : operationOf o.instr = o) (onErr : Err → State → State) (ms : List Micro)
    (idx : Nat) (s : State) (hreset : s.env.resetLine = false) (hne : ms ≠ [])
    (hplan : ∀ j, j < ms.length → (o.plan s.cfg (o.enter idx s.regs))[idx + j]? = ms[j]?)
    (henter : ∀ j, 0 < j → j < ms.length →
      o.enter (idx + j) (o.enter idx s.regs) = o.enter idx s.regs)
    (herr : ∀ j e (t : State), j < ms.length → t.cfg = s.cfg → t.phase = s.phase →
      afterWrite o (idx + j) (.err e) t = onErr e t)
    (hframe : ∀ (e : Err) (t : State) (q : Seq), onErr e { t with seq := q } = onErr e t) :
    ∃ n, n ≤ ms.length ∧ run n (arrive o idx s) = .next (afterPiece o (idx + ms.length) onErr
      (carryOut (ms.map (eventOf s.cfg (o.enter idx s.regs))) (entered o idx s))) := by
  have hpos : 0 < ms.length := List.length_pos_iff.mpr hne
  have hlt : idx < (o.plan s.cfg (o.enter idx s.regs)).length := by
    have hfirst := hplan 0 hpos
    rw [Nat.add_zero, List.getElem?_eq_getElem hpos] at hfirst
    exact (List.getElem?_eq_some_iff.mp hfirst).1
  obtain ⟨n, hn, hrun⟩ := run_stretch o ho onErr ms idx
    { s with regs := o.enter idx s.regs, seq := .running o.instr idx } hne rfl hreset hplan henter
    (fun j e t hj hcfg _ hphase => herr j e t hj hcfg hphase) hframe
  refine ⟨n, hn, ?_⟩
  rw [arrive_running o idx s hlt, hrun]
  have hseq := carryOut_seq_frame (ms.map (eventOf s.cfg (o.enter idx s.regs))) (entered o idx s)
    (.running o.instr idx)
  simp only at hseq ⊢
  rw [hseq]
  rcases carryOut (ms.map (eventOf s.cfg (o.enter idx s.regs))) (entered o idx s) with ⟨t, _ | e⟩
  · exact congrArg _ (arrive_seq_frame o _ t _)
  · exact congrArg _ (hframe e t _)

end Sys2Proof.Machine
end

section
/-! PROOFS. `PRINT` does what its loop says (42_commands.md R165, R166). -/

namespace Sys2Proof.Machine

/-! ### One byte of a text -/

/-- The registers with which `PRINT` sends a byte: a newline has advanced `CUR_ROW` (R166). -/
def printRegs (b : Byte) (r : Regs) : Regs := if b = newlineByte then r.newline else r

/-- The logical byte `PRINT` sends for a byte of its text: for a newline the set-DDRAM command of the row `CUR_ROW` has
come to, else the byte itself (R165, R166). -/
def printedByte (c : Config) (r : Regs) (b : Byte) : Byte :=
  if b = newlineByte then ddramByte c r 0 r.curRow else b

/-- The role of that logical byte. -/
def printedRole (b : Byte) : Role := if b = newlineByte then .command else .registerSelect

/-- The ten events of one byte of a text, from the registers before it. -/
def printedEvents (c : Config) (r : Regs) (b : Byte) : List Event :=
  byteEvents c (printRegs b r) (printedByte c (printRegs b r) b) (printedRole b)

section
variable {c : Config} {r : Regs} {b : Byte}

/-- A newline addresses column 0 of the row `CUR_ROW` has come to (R166). -/
theorem printedEvents_newline (hb : b = newlineByte) :
    printedEvents c r b = byteEvents c r.newline (ddramByte c r.newline 0 r.newline.curRow) .command := by
  simp only [printedEvents, printRegs, printedByte, printedRole, if_pos hb]

/-- Any other byte goes out as data (R165). -/
theorem printedEvents_data (hb : b ≠ newlineByte) : printedEvents c r b = byteEvents c r b .registerSelect := by
  simp only [printedEvents, printRegs, printedByte, printedRole, if_neg hb]

end

theorem map_printByte (c : Config) (r : Regs) (b : Byte) :
    (printByte c r b).map (eventOf c r) = byteEvents c r (printedByte c r b) (printedRole b) := by
  by_cases hb : b = newlineByte
  · simp only [printByte, printedByte, printedRole, if_pos hb, setposBody, map_command]
  · simp only [printByte, printedByte, printedRole, if_neg hb, map_send]

/-- One round of the loop of R165. -/
theorem carryOutText_cons (b : Byte) (bs : List Byte) (s : State) :
    carryOutText (b :: bs) s =
      andThen (carryOut (printedEvents s.cfg s.regs b) { s with regs := printRegs b s.regs })
        (carryOutText bs) := by
  by_cases hb : b = newlineByte
  · rw [printedEvents_newline hb, printRegs, if_pos hb, carryOutText, if_pos (show b = 0x0A from hb)]
    rfl
  · rw [printedEvents_data hb, printRegs, if_neg hb, carryOutText, if_neg (show b ≠ 0x0A from hb)]

/-! ### The loop -/

theorem printEnter_at (done bs : List Byte) (b : Byte) (r : Regs) :
    printEnter (done ++ b :: bs) (10 * done.length) r = printRegs b r := by
  simp [printEnter_start, printRegs]

/-- The events of the byte after `done`. -/
theorem printPlan_at (done bs : List Byte) (b : Byte) (c : Config) (r : Regs) (j : Nat) (hj : j < 10) :
    ((done ++ b :: bs).flatMap (printByte c r))[10 * done.length + j]? = (printByte c r b)[j]? := by
  rw [getElem?_flatMap_of_length _ 10 (length_printByte c r) _ _ _ hj]
  simp

/-- One byte of a text: the machine carries its ten events out and arrives before the next byte, or the first failed
write ends the operation. -/
theorem run_printByte (done bs : List Byte) (b : Byte) (s : State) (hreset : s.env.resetLine = false) :
    ∃ n, n ≤ 10 ∧ run n (arrive (opPrint (done ++ b :: bs)) (10 * done.length) s) =
      .next (afterPiece (opPrint (done ++ b :: bs)) (10 * (done ++ [b]).length)
        (fun e t => t.finish (.err e) s.phase)
        (carryOut (printedEvents s.cfg s.regs b) { s with regs := printRegs b s.regs })) := by
  have hregs := printEnter_at done bs b s.regs
  have hlen := length_printByte s.cfg (printRegs b s.regs) b
  obtain ⟨n, hn, hrun⟩ := run_piece (opPrint (done ++ b :: bs)) rfl (fun e t => t.finish (.err e) s.phase)
    (printByte s.cfg (printRegs b s.regs) b) (10 * done.length) s hreset
    (List.length_pos_iff.mp (by rw [hlen]; decide))
    (fun j hj => by
      rw [hlen] at hj
      simpa only [opPrint, hregs] using printPlan_at done bs b s.cfg (printRegs b s.regs) j hj)
    (fun j hpos hj => by
      rw [hlen] at hj
      exact printEnter_inside _ _ j _ hpos hj)
    (fun j e t _ _ hphase => hphase ▸ afterWrite_uncaught _ _ e t rfl)
    (fun _ _ _ => rfl)
  refine ⟨n, hlen ▸ hn, ?_⟩
  rw [hrun, hlen, entered, show (opPrint (done ++ b :: bs)).enter = printEnter (done ++ b :: bs) from rfl, hregs,
    map_printByte, List.length_append, List.length_singleton, Nat.mul_add]
  rfl

/-- From its arrival before the bytes `rest`, the operation ends as the loop over `rest` does. -/
theorem run_print : ∀ (rest done : List Byte) (s : State), s.env.resetLine = false →
    ∃ n, n ≤ 10 * rest.length ∧ run n (arrive (opPrint (done ++ rest)) (10 * done.length) s) =
      .next (concluded s.phase s.phase (carryOutText rest s))
  | [], done, s, _ => by
    refine ⟨0, Nat.zero_le _, ?_⟩
    have henter : (opPrint done).enter (10 * done.length) s.regs = s.regs := printEnter_end done s.regs
    rw [List.append_nil, run_zero, arrive_end _ _ _ (length_printPlan _ _ done).le, entered, henter]
    rfl
  | b :: bs, done, s, hreset => by
    obtain ⟨n, hn, hbyte⟩ := run_printByte done bs b s hreset
    have hphase := carryOut_phase (printedEvents s.cfg s.regs b) { s with regs := printRegs b s.regs }
    have hline := carryOut_resetLine (printedEvents s.cfg s.regs b) { s with regs := printRegs b s.regs }
    rw [carryOutText_cons]
    rcases hc : carryOut (printedEvents s.cfg s.regs b) { s with regs := printRegs b s.regs } with ⟨t, _ | e⟩
    · rw [hc] at hphase hline hbyte
      obtain ⟨m, hm, hrest⟩ := run_print bs (done ++ [b]) t (hline.trans hreset)
      rw [List.append_assoc, List.singleton_append] at hrest
      refine ⟨n + m, by rw [List.length_cons]; omega, ?_⟩
      rw [run_add m n _ _ hbyte, afterPiece, hrest, andThen_none, hphase]
    · rw [hc] at hbyte
      exact ⟨n, by rw [List.length_cons]; omega, hbyte⟩

/-- Settles O30: from the arrival before its first byte, `PRINT` ends as the loop of R165 over the whole text does, by
induction over the bytes that are left. -/
theorem printFollowsTheText : Obligations.PrintFollowsTheText := by
  intro s text hready
  have haccept := exec_of_readyIdle (.print text) s hready rfl
  obtain ⟨-, -, hreset⟩ := hready
  obtain ⟨n, hn, hrun⟩ := run_print text [] s hreset
  exact ⟨_, n, haccept, hn, hrun⟩

end Sys2Proof.Machine
end

section
/-! PROOFS. What a sink that accepts leaves in the record, and what an accepted text makes the controller latch
(42_commands.md R165, R166; 20_memory.md R53, R57; 70_reset_and_hazards.md R243). -/

namespace Sys2Proof.Machine

/-! ### Events against a sink that accepts -/

/-- A write that the sink accepts uses up one of its answers. -/
theorem afterEvent_of_busAccepts (ev : Event) (n : Nat) (s : State)
    (h : BusAccepts ((if isWrite ev then 1 else 0) + n) s) :
    errorOf ev s = none ∧ (afterEvent ev s).env.trace = s.env.trace ++ accepted [ev] ∧
      BusAccepts n (afterEvent ev s) := by
  cases ev with
  | w a v =>
    rcases hsink : s.env.sink with _ | ⟨x, rest⟩
    · simp [BusAccepts, hsink, isWrite, Nat.add_comm 1 n, List.replicate_succ] at h
    · have hhead : x = .ok ∧ rest.take n = List.replicate n .ok := by
        simpa [BusAccepts, hsink, isWrite, Nat.add_comm 1 n, List.replicate_succ] using h
      obtain ⟨rfl, hrest⟩ := hhead
      simp [errorOf, afterEvent, Env.nextAnswer, BusAccepts, hsink, hrest]
  | dms n => exact ⟨rfl, rfl, by simpa [isWrite, BusAccepts, afterEvent] using h⟩
  | dus n => exact ⟨rfl, rfl, by simpa [isWrite, BusAccepts, afterEvent] using h⟩

/-- Events whose writes the sink accepts are all carried out, and the record shows them accepted. -/
theorem carryOut_of_busAccepts : ∀ (evs : List Event) (n : Nat) (s : State),
    BusAccepts (evs.countP isWrite + n) s →
    ∃ t, carryOut evs s = (t, none) ∧ t.env.trace = s.env.trace ++ accepted evs ∧ BusAccepts n t
  | [], _, s, h => ⟨s, rfl, by simp, by simpa using h⟩
  | ev :: evs, n, s, h => by
    rw [List.countP_cons, Nat.add_comm (List.countP isWrite evs), Nat.add_assoc] at h
    obtain ⟨herr, htrace, hleft⟩ := afterEvent_of_busAccepts ev _ s h
    obtain ⟨t, hcarry, hrest, haccepts⟩ := carryOut_of_busAccepts evs n (afterEvent ev s) hleft
    refine ⟨t, by rw [carryOut, herr]; exact hcarry, ?_, haccepts⟩
    rw [hrest, htrace, List.append_assoc]
    rfl

/-- One logical byte is six writes (R123). -/
theorem countP_isWrite_byteEvents (c : Config) (r : Regs) (data : Byte) (role : Role) :
    (byteEvents c r data role).countP isWrite = 6 := rfl

/-! ### The events of a text -/

/-- The events of a text when nothing fails, from the registers before it. -/
def textEvents (c : Config) : Regs → List Byte → List Event
  | _, [] => []
  | r, b :: bs => printedEvents c r b ++ textEvents c (printRegs b r) bs

/-- `PRINT`'s loop against a sink that accepts. -/
theorem carryOutText_of_busAccepts : ∀ (text : List Byte) (s : State), BusAccepts (6 * text.length) s →
    ∃ t, carryOutText text s = (t, none) ∧
      t.env.trace = s.env.trace ++ accepted (textEvents s.cfg s.regs text)
  | [], s, _ => ⟨s, rfl, by simp [textEvents]⟩
  | b :: bs, s, h => by
    have hsix : 6 * (b :: bs).length = (printedEvents s.cfg s.regs b).countP isWrite + 6 * bs.length := by
      rw [printedEvents, countP_isWrite_byteEvents, List.length_cons]; omega
    obtain ⟨t, hcarry, htrace, haccepts⟩ := carryOut_of_busAccepts (printedEvents s.cfg s.regs b)
      (6 * bs.length) { s with regs := printRegs b s.regs } (hsix ▸ h)
    obtain ⟨t', hrest, htrace'⟩ := carryOutText_of_busAccepts bs t haccepts
    have hcfg := carryOut_cfg (printedEvents s.cfg s.regs b) { s with regs := printRegs b s.regs }
    have hregs := carryOut_regs (printedEvents s.cfg s.regs b) { s with regs := printRegs b s.regs }
    rw [hcarry] at hcfg hregs
    simp only at hcfg hregs
    refine ⟨t', by rw [carryOutText_cons, hcarry, andThen_none, hrest], ?_⟩
    rw [htrace', htrace, hcfg, hregs, textEvents, accepted, accepted, accepted, List.map_append, List.append_assoc]

/-! ### The latches of a text -/

/-- What the controller latches over a text: the two nibbles of each logical byte, in text order. -/
def textLatches (c : Config) : Regs → List Byte → List Latch
  | _, [] => []
  | r, b :: bs =>
    latchesOfByte (printedByte c (printRegs b r) b) (printedRole b) ++ textLatches c (printRegs b r) bs

/-- One byte of R165's loop as a fold over the text: the registers and the latches so far. -/
def deliverByte (c : Config) (p : Regs × List Latch) (b : Byte) : Regs × List Latch :=
  if b = 0x0A then
    (p.1.newline, p.2 ++ latchesOfByte (ddramByte c p.1.newline 0 p.1.newline.curRow) .command)
  else (p.1, p.2 ++ latchesOfByte b .registerSelect)

theorem deliverByte_eq (c : Config) (p : Regs × List Latch) (b : Byte) :
    deliverByte c p b =
      (printRegs b p.1, p.2 ++ latchesOfByte (printedByte c (printRegs b p.1) b) (printedRole b)) := by
  by_cases hb : b = newlineByte
  · simp only [printRegs, printedByte, printedRole, if_pos hb]
    exact if_pos hb
  · simp only [printRegs, printedByte, printedRole, if_neg hb]
    exact if_neg hb

/-- The fold over the text gathers the latches of the text. -/
theorem foldl_deliverByte (c : Config) : ∀ (text : List Byte) (r : Regs) (sofar : List Latch),
    (text.foldl (deliverByte c) (r, sofar)).2 = sofar ++ textLatches c r text
  | [], _, _ => by simp [textLatches]
  | b :: bs, r, sofar => by
    rw [List.foldl_cons, deliverByte_eq, foldl_deliverByte c bs, textLatches, List.append_assoc]

@[simp] theorem printRegs_addr (b : Byte) (r : Regs) : (printRegs b r).addr = r.addr := by
  unfold printRegs; split <;> simp

/-- Each byte leaves enable low, so only the first write of a text can be the falling edge of a line held high
(R243). -/
theorem latchesFrom_textEvents {c : Config} (h : c.SpecConstants) (u : Nat → Byte) :
    ∀ (text : List Byte) (r : Regs) (k : Nat) (before : Byte),
      latchesFrom u r.addr k before (accepted (textEvents c r text)) =
        (if enableLine before then (textLatches c r text).take 1 else []) ++ textLatches c r text
  | [], _, _, _ => by simp [textEvents, textLatches, latchesFrom]
  | b :: bs, r, k, before => by
    have hsplit : accepted (textEvents c r (b :: bs)) =
        accepted (printedEvents c r b) ++ accepted (textEvents c (printRegs b r) bs) := List.map_append
    rw [hsplit, latchesFrom_append, printedEvents, ← printRegs_addr b r, latchesFrom_byteEvents h,
      latchesFrom_textEvents h u bs, enableLine_linesFrom_byteEvents h]
    simp [textLatches, latchesOfByte]

/-- Settles O41: the loop of R165 against a sink that accepts records the events of the text, and their latches are
those of the text. -/
theorem printReachesTheController : Obligations.PrintReachesTheController := by
  intro s text hready hspec haccepts
  have haccept := exec_of_readyIdle (.print text) s hready rfl
  obtain ⟨-, -, hreset⟩ := hready
  obtain ⟨n, -, hrun⟩ := run_print text [] s hreset
  obtain ⟨t, hcarry, htrace⟩ := carryOutText_of_busAccepts text s haccepts
  rw [hcarry] at hrun
  refine ⟨_, n, _, accepted (textEvents s.cfg s.regs text), haccept, hrun, rfl, rfl, htrace, ?_⟩
  intro u now before delivered
  have hdelivered : delivered = textLatches s.cfg s.regs text := foldl_deliverByte s.cfg text s.regs []
  rw [hdelivered]
  exact latchesFrom_textEvents hspec u text s.regs s.env.trace.length before

end Sys2Proof.Machine
end

section
/-! PROOFS. The display commands and data operations without a loop (42_commands.md R160 to R164). -/

namespace Sys2Proof.Machine

/-- Settles O24: the plan is `CLEAR_BODY`. -/
theorem clearSendsAndWaits : Obligations.ClearSendsAndWaits := by
  intro s hready
  have h := completes_of_plain_operation .clear (fun c _ => clearBody c) s rfl hready (List.cons_ne_nil _ _)
  rwa [map_clearBody, length_clearBody] at h

/-- `HOME`'s events are those of its command byte and the clear delay (R161). -/
theorem map_homeBody (c : Config) (r : Regs) :
    (command c c.opHome ++ [Micro.dms c.tClearMs]).map (eventOf c r) =
      byteEvents c r c.opHome .command ++ [.dms c.tClearMs] := by
  rw [List.map_append, map_command]
  rfl

/-- Settles O25: the plan is the command byte and the delay. -/
theorem homeSendsAndWaits : Obligations.HomeSendsAndWaits := by
  intro s hready
  have h := completes_of_plain_operation .home (fun c _ => command c c.opHome ++ [.dms c.tClearMs]) s rfl hready
    (List.cons_ne_nil _ _)
  rwa [map_homeBody, List.length_append, length_command] at h

/-- Settles O29: the plan is `SEND` with role RegisterSelect, whatever the byte. -/
theorem writeSendsOneDataByte : Obligations.WriteSendsOneDataByte := by
  intro s b hready
  have h := completes_of_plain_operation (.write b) (fun c _ => send c b .registerSelect) s rfl hready
    (List.cons_ne_nil _ _)
  rwa [map_send, length_send] at h

/-- Settles O26: a position that is not refused is the plan `SETPOS_BODY`, whose byte clamps the row and drops the
carry of the sum (R90). -/
theorem setCursorPositionAddressesTheRow : Obligations.SetCursorPositionAddressesTheRow := by
  intro s col row hready hbad
  obtain ⟨hphase, hidle, hreset⟩ := hready
  have h := completes_of_plan (.setCursorPosition col row) s 10 s.regs hidle hreset (.inr hphase) hbad rfl
    (fun _ _ => rfl) (fun _ => rfl) (length_setposBody s.cfg s.regs col row) (by decide)
  rwa [show (operationOf (.setCursorPosition col row)).plan s.cfg s.regs =
    command s.cfg (ddramByte s.cfg s.regs col row) from rfl, map_command] at h

end Sys2Proof.Machine
end

section
/-! PROOFS. `CREATE_CHAR` under its two policies (42_commands.md R163; 60_exceptions.md R203, R208). -/

namespace Sys2Proof.Machine

/-- The plan of `CREATE_CHAR`: the set-CGRAM command, then the bitmap as data (R163). -/
theorem plan_createChar (location : Byte) (bitmap : List Byte) (c : Config) (r : Regs) :
    (operationOf (.createChar location bitmap)).plan c r =
      command c (cgramByte c location) ++ bitmap.flatMap (fun b => send c b .registerSelect) := rfl

theorem map_planCreateChar (location : Byte) (bitmap : List Byte) (c : Config) (r : Regs) :
    ((operationOf (.createChar location bitmap)).plan c r).map (eventOf c r) =
      byteEvents c r (cgramByte c location) .command ++
        bitmap.flatMap (fun b => byteEvents c r b .registerSelect) := by
  rw [plan_createChar, List.map_append, map_command, map_flatMap_send]

theorem length_planCreateChar (location : Byte) (bitmap : List Byte) (c : Config) (r : Regs) :
    ((operationOf (.createChar location bitmap)).plan c r).length = 10 * (bitmap.length + 1) := by
  rw [plan_createChar, List.length_append, length_command, length_bitmapPlan, Nat.mul_succ, Nat.add_comm]

/-! ### The default policy -/

/-- Settles O27: with the default policy no error is caught, so the plan is carried out up to the first one. -/
theorem createCharPropagates : Obligations.CreateCharPropagates := by
  intro s location b0 b1 b2 b3 b4 b5 b6 b7 hready hpolicy bitmap
  obtain ⟨hphase, hidle, hreset⟩ := hready
  have huncaught : ∀ idx, createCharResume s.cfg idx = none := fun idx =>
    (createCharResume_none s.cfg idx).mpr (by simp [hpolicy])
  have h := completes_of_plan (.createChar location bitmap) s 90 s.regs hidle hreset (.inr hphase) rfl rfl
    (fun _ _ => rfl) huncaught (length_planCreateChar location bitmap s.cfg s.regs) (by decide)
  rwa [map_planCreateChar] at h

/-! ### The swallow policy -/

/-- `CREATE_CHAR` writes no register. -/
theorem enter_createChar (location : Byte) (bitmap : List Byte) (idx : Nat) (r : Regs) :
    (opCreateChar location bitmap).enter idx r = r := rfl

theorem entered_createChar (location : Byte) (bitmap : List Byte) (idx : Nat) (s : State) :
    entered (opCreateChar location bitmap) idx s = s := rfl

/-- Where an error is discarded the operation goes on as if there had been none. -/
theorem afterPiece_of_swallowed (o : Operation) (next : Nat) (p : State × Option Err) :
    afterPiece o next (fun _ t => arrive o next t) p = arrive o next p.1 := by
  rcases p with ⟨t, _ | e⟩ <;> rfl

/-- The set-CGRAM command, whose error is not caught (R163). -/
theorem run_setCgram (location : Byte) (bitmap : List Byte) (s : State) (hreset : s.env.resetLine = false) :
    ∃ n, n ≤ 10 ∧ run n (arrive (opCreateChar location bitmap) 0 s) =
      .next (afterPiece (opCreateChar location bitmap) 10 (fun e t => t.finish (.err e) s.phase)
        (carryOut (byteEvents s.cfg s.regs (cgramByte s.cfg location) .command) s)) := by
  obtain ⟨n, hn, hrun⟩ := run_piece (opCreateChar location bitmap) rfl (fun e t => t.finish (.err e) s.phase)
    (command s.cfg (cgramByte s.cfg location)) 0 s hreset (List.cons_ne_nil _ _)
    (fun j hj => by rw [Nat.zero_add]; exact List.getElem?_append_left hj)
    (fun _ _ _ => rfl)
    (fun j e t hj _ hphase => by
      rw [length_command] at hj
      exact hphase ▸ afterWrite_uncaught _ _ e t ((createCharResume_none _ _).mpr (by omega)))
    (fun _ _ _ => rfl)
  refine ⟨n, hn, ?_⟩
  rw [hrun, entered_createChar, enter_createChar, map_command, length_command]

/-- The events of the bitmap byte after `done`. -/
theorem bitmapPlan_at (location : Byte) (done bs : List Byte) (b : Byte) (c : Config) (r : Regs) (j : Nat)
    (hj : j < 10) :
    ((opCreateChar location (done ++ b :: bs)).plan c r)[10 * (done.length + 1) + j]? =
      (send c b .registerSelect)[j]? := by
  have hskip : 10 * (done.length + 1) + j - 10 = 10 * done.length + j := by omega
  rw [opCreateChar, List.getElem?_append_right (by rw [length_command]; omega), length_command, hskip,
    getElem?_flatMap_of_length _ 10 (fun _ => length_send c _ _) _ _ _ hj]
  simp

/-- One bitmap byte in swallow mode: whether a write of it failed or not, the machine arrives before the next one. -/
theorem run_swallowedByte (location : Byte) (done bs : List Byte) (b : Byte) (s : State)
    (hreset : s.env.resetLine = false) (hpolicy : s.cfg.createCharErrors = .swallow) :
    ∃ n, n ≤ 10 ∧
      run n (arrive (opCreateChar location (done ++ b :: bs)) (10 * (done.length + 1)) s) =
        .next (arrive (opCreateChar location (done ++ b :: bs)) (10 * ((done ++ [b]).length + 1))
          (carryOut (byteEvents s.cfg s.regs b .registerSelect) s).1) := by
  obtain ⟨n, hn, hrun⟩ := run_piece (opCreateChar location (done ++ b :: bs)) rfl
    (fun _ t => arrive (opCreateChar location (done ++ b :: bs)) (10 * ((done ++ [b]).length + 1)) t)
    (send s.cfg b .registerSelect) (10 * (done.length + 1)) s hreset (List.cons_ne_nil _ _)
    (fun j hj => bitmapPlan_at location done bs b s.cfg s.regs j hj)
    (fun _ _ _ => rfl)
    (fun j e t hj hcfg _ => by
      rw [length_send] at hj
      refine afterWrite_caught _ _ _ e t ((createCharResume_some _ _ _).mpr ⟨hcfg ▸ hpolicy, by omega, ?_⟩)
      rw [List.length_append, List.length_singleton]
      omega)
    (fun _ t q => arrive_seq_frame _ _ t q)
  refine ⟨n, hn, ?_⟩
  rw [hrun, entered_createChar, enter_createChar, map_send, length_send, List.length_append, List.length_singleton,
    ← Nat.mul_succ 10 (done.length + 1), afterPiece_of_swallowed]

/-- From its arrival before the bitmap bytes `rest`, the operation ends with `Ok` where the loop over `rest` does. -/
theorem run_swallowedBytes (location : Byte) : ∀ (rest done : List Byte) (s : State),
    s.env.resetLine = false → s.cfg.createCharErrors = .swallow →
    ∃ n, n ≤ 10 * rest.length ∧
      run n (arrive (opCreateChar location (done ++ rest)) (10 * (done.length + 1)) s) =
        .next (ended .ok s.phase (carryOutSwallowing rest s))
  | [], done, s, _, _ => by
    have hend : ((opCreateChar location done).plan s.cfg s.regs).length ≤ 10 * (done.length + 1) :=
      (length_planCreateChar location done s.cfg s.regs).le
    refine ⟨0, Nat.zero_le _, ?_⟩
    rw [List.append_nil, run_zero, arrive_end _ _ _ hend]
    rfl
  | b :: bs, done, s, hreset, hpolicy => by
    obtain ⟨n, hn, hbyte⟩ := run_swallowedByte location done bs b s hreset hpolicy
    have hcfg := carryOut_cfg (byteEvents s.cfg s.regs b .registerSelect) s
    have hphase := carryOut_phase (byteEvents s.cfg s.regs b .registerSelect) s
    have hline := carryOut_resetLine (byteEvents s.cfg s.regs b .registerSelect) s
    obtain ⟨m, hm, hrest⟩ := run_swallowedBytes location bs (done ++ [b]) _ (hline.trans hreset)
      (hcfg.symm ▸ hpolicy)
    rw [List.append_assoc, List.singleton_append] at hrest
    refine ⟨n + m, by rw [List.length_cons]; omega, ?_⟩
    rw [run_add m n _ _ hbyte, hrest, hphase, carryOutSwallowing]

/-- `CREATE_CHAR` in swallow mode, for a bitmap of any length: the set-CGRAM command ends it at its first error, and
after it the bitmap bytes are sent one by one. -/
theorem completes_createChar_of_swallow (s : State) (location : Byte) (bitmap : List Byte) (hready : ReadyIdle s)
    (hpolicy : s.cfg.createCharErrors = .swallow) :
    Completes (.createChar location bitmap) s { s with seq := .running (.createChar location bitmap) 0 }
      (10 * (bitmap.length + 1))
      (concluded s.phase s.phase (andThen
        (carryOut (byteEvents s.cfg s.regs (cgramByte s.cfg location) .command)
          { s with seq := .running (.createChar location bitmap) 0 })
        (fun t => (carryOutSwallowing bitmap t, none)))) := by
  have hexec := exec_of_readyIdle (.createChar location bitmap) s hready rfl
  obtain ⟨-, -, hreset⟩ := hready
  have haccept : arrive (opCreateChar location bitmap) 0 s =
      { s with seq := .running (.createChar location bitmap) 0 } :=
    arrive_running _ 0 s (by
      rw [show (opCreateChar location bitmap).plan = (operationOf (.createChar location bitmap)).plan from rfl,
        length_planCreateChar]
      omega)
  refine ⟨hexec.trans (congrArg _ haccept), ?_⟩
  obtain ⟨n, hn, hcgram⟩ := run_setCgram location bitmap
    { s with seq := .running (.createChar location bitmap) 0 } hreset
  rw [arrive_seq_frame, haccept] at hcgram
  have hkeeps := carryOut_keeps (byteEvents s.cfg s.regs (cgramByte s.cfg location) .command)
    { s with seq := .running (.createChar location bitmap) 0 }
  rcases hc : carryOut (byteEvents s.cfg s.regs (cgramByte s.cfg location) .command)
    { s with seq := .running (.createChar location bitmap) 0 } with ⟨t, _ | e⟩
  · rw [hc] at hcgram hkeeps
    obtain ⟨hcfg, -, hsame, -, hline⟩ := hkeeps
    obtain ⟨m, hm, hbytes⟩ := run_swallowedBytes location bitmap [] t (hline.trans hreset) (hcfg ▸ hpolicy)
    refine ⟨n + m, by omega, ?_⟩
    rw [run_add m n _ _ hcgram, andThen_none, concluded, ← hsame]
    exact hbytes
  · rw [hc] at hcgram
    exact ⟨n, by omega, hcgram⟩

/-- Settles O28: the case of an eight-byte bitmap. -/
theorem createCharSwallows : Obligations.CreateCharSwallows := by
  intro s location b0 b1 b2 b3 b4 b5 b6 b7 hready hpolicy bitmap
  exact completes_createChar_of_swallow s location bitmap hready hpolicy

end Sys2Proof.Machine
end

section
/-! PROOFS. Where a newline goes (42_commands.md R166; 10_state.md R24, R30; 70_reset_and_hazards.md R246). -/

namespace Sys2Proof.Machine

/-- The sum is in the naturals, so the clamp to `ROWS` is exact (R104(f)). -/
theorem newline_curRow_toNat (r : Regs) :
    r.newline.curRow.toNat = min (r.curRow.toNat + 1) r.rows.toNat := by
  have hlt := r.rows.isLt
  simp only [Regs.newline, BitVec.toNat_ofNat]
  omega

/-- The row a newline addresses (R24, R166). -/
theorem effectiveRow_newline (r : Regs) :
    effectiveRow r.newline r.newline.curRow = min (r.curRow.toNat + 1) (min (r.rows.toNat - 1) 3) := by
  rw [effectiveRow, newline_curRow_toNat r, newline_rows]
  omega

/-- `CUR_ROW` stays at `ROWS` (R246). -/
theorem newline_at_last_row (r : Regs) (hlast : r.curRow = r.rows) : r.newline = r := by
  have hrow : r.newline.curRow = r.curRow := by
    apply BitVec.eq_of_toNat_eq
    rw [newline_curRow_toNat r, hlast]
    omega
  calc r.newline = { r with curRow := r.newline.curRow } := rfl
    _ = r := by rw [hrow]

/-- Settles O31: every clause is read off the row a newline addresses. -/
theorem newlineClampsToTheLastRow : Obligations.NewlineClampsToTheLastRow := by
  intro c r h
  have hrow := effectiveRow_newline r
  obtain ⟨-, hrows, -⟩ := h
  refine ⟨newline_curRow_toNat r, rfl, ?_, fun hlast => ⟨newline_at_last_row r hlast, ?_⟩, fun hfour => ?_⟩
  · rw [hrow]; omega
  · rw [hrow, hlast]; omega
  · have hmin : min (r.curRow.toNat + 1) (min (r.rows.toNat - 1) 3) =
        min (r.curRow.toNat + 1) (r.rows.toNat - 1) := by omega
    rw [ddramByte, ddramAddress, rowStart, hrow, hmin, newline_rowOff]
    exact congrArg _ (BitVec.zero_add _)

end Sys2Proof.Machine
end

section
/-! PROOFS. The control operations: one field of the Control Aggregator is replaced before the first event
(43_control.md R190 to R193; 10_state.md R29, R37; 30_encoding.md R89). -/

namespace Sys2Proof.Machine

/-- A request whose operation is a register write at its start and its plan (every other field at its default): offered
to the idle `READY` block it is accepted with the registers written, and carries out the events of the plan on them.
Nothing takes the write back when an event fails (R37). -/
theorem completes_of_atStart_operation (i : Instr) (write : Regs → Regs) (plan : Config → Regs → List Micro)
    (s : State) (hop : operationOf i = { instr := i, enter := atStart write, plan := plan }) (hready : ReadyIdle s)
    (hne : plan s.cfg (write s.regs) ≠ []) :
    Completes i s { s with regs := write s.regs, seq := .running i 0 } (plan s.cfg (write s.regs)).length
      (concluded s.phase s.phase
        (carryOut ((plan s.cfg (write s.regs)).map (eventOf s.cfg (write s.regs)))
          { s with regs := write s.regs, seq := .running i 0 })) := by
  obtain ⟨hphase, hseq, hreset⟩ := hready
  have hbad : i.badConfig s.cfg s.regs = false := by rw [← operationOf_badConfig, hop]
  have hfirst : (operationOf i).enter 0 s.regs = write s.regs := by rw [hop]; rfl
  have hlater : ∀ idx, 0 < idx → (operationOf i).enter idx (write s.regs) = write s.regs := fun idx hpos => by
    rw [hop]; exact atStart_of_pos write idx _ hpos
  have hcompletes := completes_of_plan i s _ (write s.regs) hseq hreset (.inr hphase) hbad hfirst hlater
    (fun _ => by rw [hop]) (by rw [hop]) (List.length_pos_iff.mpr hne)
  rwa [← operationOf_phaseOk, ← operationOf_phaseErr, hop] at hcompletes

/-- The operations that write a field and then send the aggregate: the ten events are those of the display-control
command with the field replaced (R89). -/
theorem completes_of_sendDispctl (i : Instr) (write : Regs → Regs) (s : State)
    (hop : operationOf i = { instr := i, enter := atStart write, plan := sendDispctl }) (hready : ReadyIdle s) :
    Completes i s { s with regs := write s.regs, seq := .running i 0 } 10
      (concluded s.phase s.phase
        (carryOut (byteEvents s.cfg (write s.regs) (dispctlByte s.cfg (write s.regs)) .command)
          { s with regs := write s.regs, seq := .running i 0 })) := by
  have h := completes_of_atStart_operation i write sendDispctl s hop hready (List.cons_ne_nil _ _)
  rwa [sendDispctl, map_command, length_command] at h

/-- Settles O32: each of the three writes its own field at its start and has the plan `sendDispctl`. -/
theorem flagOperationsSendDisplayControl : Obligations.FlagOperationsSendDisplayControl := by
  intro s f hready
  exact ⟨completes_of_sendDispctl (.setDisplay f) (fun r => r.setDisplay f) s rfl hready,
    completes_of_sendDispctl (.setCursor f) (fun r => r.setCursor f) s rfl hready,
    completes_of_sendDispctl (.setBlink f) (fun r => r.setBlink f) s rfl hready⟩

/-- After the backlight is replaced, `bl()` is the new flag's bit (R29). -/
theorem bl_setBacklight (c : Config) (r : Regs) (f : Flag) :
    bl c (r.setBacklight f) = match f with | .on => c.blBit | .off => 0 := by
  cases f <;> rfl

/-- `EXPANDER_WRITE(0x00)` puts `bl()` alone on the bus (R120). -/
theorem map_expanderWrite_zero (c : Config) (r : Regs) :
    (expanderWrite 0x00).map (eventOf c r) = [.w r.addr (bl c r)] := by
  rw [map_expanderWrite, show (0x00 : Byte) ||| bl c r = bl c r from BitVec.zero_or]

/-- Settles O33: the plan is `EXPANDER_WRITE(0x00)`, which reads the backlight just written. -/
theorem setBacklightWritesTheBacklightBit : Obligations.SetBacklightWritesTheBacklightBit := by
  intro s f hready
  have h := completes_of_atStart_operation (.setBacklight f) (fun r => r.setBacklight f)
    (fun _ _ => expanderWrite 0x00) s rfl hready (List.cons_ne_nil _ _)
  rw [map_expanderWrite_zero, bl_setBacklight] at h
  exact h

end Sys2Proof.Machine
end

section
/-! PROOFS. The block copies error values and never inspects them (60_exceptions.md R200). -/

namespace Sys2Proof.Machine

section relabelling

variable (f : Err → Err)

/-! ### The shared operations -/

theorem nextAnswer_mapErrors (s : State) (h : s.env.sink ≠ []) :
    (mapErrors f s).env.nextAnswer = mapAnswer f s.env.nextAnswer := by
  rcases hsink : s.env.sink with _ | ⟨a, rest⟩
  · exact absurd hsink h
  · simp [Env.nextAnswer, mapErrors, hsink]

/-- While the script lasts, the relabelled answer is the one recorded (R7). -/
theorem memWrite_mapErrors (s : State) (v : Byte) (h : s.env.sink ≠ []) :
    (mapErrors f s).memWrite v = mapErrors f (s.memWrite v) := by
  rw [State.memWrite, nextAnswer_mapErrors f s h]
  simp [mapErrors, State.memWrite]

theorem delay_mapErrors (s : State) (ev : Event) : (mapErrors f s).delay ev = mapErrors f (s.delay ev) := by
  simp [mapErrors, State.delay, State.record, mapAnswer]

theorem finish_mapErrors (s : State) (r : Result) (p : Phase) :
    (mapErrors f s).finish (mapResult f r) p = mapErrors f (s.finish r p) := by
  simp [mapErrors, State.finish]

theorem arrive_mapErrors (o : Operation) (idx : Nat) (s : State) :
    arrive o idx (mapErrors f s) = mapErrors f (arrive o idx s) := by
  rcases arrive_cases o idx s with ⟨hlt, h⟩ | ⟨hle, h⟩ <;> rw [h]
  · exact arrive_running o idx (mapErrors f s) hlt
  · exact (arrive_end o idx (mapErrors f s) hle).trans (finish_mapErrors f (entered o idx s) .ok _)

/-- Which case of the end of a write applies depends on whether there is an error, not on which. -/
theorem afterWrite_mapErrors (o : Operation) (idx : Nat) (a : Answer) (s : State) :
    afterWrite o idx (mapAnswer f a) (mapErrors f s) = mapErrors f (afterWrite o idx a s) := by
  rcases afterWrite_cases o idx a s with ⟨rfl, h⟩ | ⟨e, next, rfl, hres, h⟩ | ⟨e, rfl, hres, h⟩ <;> rw [h]
  · exact arrive_mapErrors f o (idx + 1) s
  · exact (afterWrite_caught o idx next (f e) (mapErrors f s) hres).trans (arrive_mapErrors f o next s)
  · exact (afterWrite_uncaught o idx (f e) (mapErrors f s) hres).trans (finish_mapErrors f s (.err e) _)

theorem perform_mapErrors (o : Operation) (idx : Nat) (s : State) (hsink : s.env.sink ≠ []) :
    perform o idx (mapErrors f s) = mapErrors f (perform o idx s) := by
  have hplan : o.plan (mapErrors f s).cfg (mapErrors f s).regs = o.plan s.cfg s.regs := rfl
  unfold perform
  rw [hplan]
  rcases (o.plan s.cfg s.regs)[idx]? with _ | (data | n | n)
  · exact finish_mapErrors f s .ok _
  · have hbyte : wireByte (mapErrors f s) data = wireByte s data := rfl
    simp only [hbyte, nextAnswer_mapErrors f s hsink, memWrite_mapErrors f s _ hsink, afterWrite_mapErrors]
  · simp only [delay_mapErrors, arrive_mapErrors]
  · simp only [delay_mapErrors, arrive_mapErrors]

theorem offer_mapErrors (o : Operation) (s : State) :
    offer o (mapErrors f s) = mapErrors f (offer o s) := by
  have hrefuse : ∀ code, (mapErrors f s).refuse code = mapErrors f (s.refuse code) :=
    fun code => finish_mapErrors f s (.refused code) s.phase
  have hphase : (mapErrors f s).phase = s.phase := rfl
  have hbad : o.badConfig (mapErrors f s).cfg (mapErrors f s).regs = o.badConfig s.cfg s.regs := rfl
  unfold offer
  rw [hphase, hbad, hrefuse, hrefuse, arrive_mapErrors, apply_ite (mapErrors f), apply_ite (mapErrors f)]

/-! ### The ports and the step -/

/-- What the block finds at its ports, with every error value relabelled. -/
def relabelFetched : Fetched → Fetched
  | .wait => .wait
  | .illegal s => .illegal (mapErrors f s)
  | .request i s => .request i (mapErrors f s)

/-- There are no error values at the request port and in the payload stream. -/
theorem fetch_mapErrors (s : State) : fetch (mapErrors f s) = relabelFetched f (fetch s) := by
  have hreq : (mapErrors f s).env.requests = s.env.requests := rfl
  have hpay : (mapErrors f s).env.payload = s.env.payload := rfl
  unfold fetch
  rw [hreq, hpay]
  rcases s.env.requests with _ | ⟨w, rest⟩
  · rfl
  · by_cases hlen : s.env.payload.length < payloadLength w
    · simp only [if_pos hlen, relabelFetched]
    · simp only [if_neg hlen]
      rcases decode w (s.env.payload.take (payloadLength w)) with e | i <;> rfl

end relabelling

theorem fetch_request_seq (s t : State) (i : Instr) (h : fetch s = .request i t) : t.seq = s.seq := by
  unfold fetch at h
  split at h
  · cases h
  · split at h
    · cases h
    · split at h <;> cases h
      rfl

/-- Settles O15: every part of the step commutes with the relabelling: reset, the next event of the operation in
progress, and the idle block's wait, refusal or offer. -/
theorem errorValueIsNeverInspected : Obligations.ErrorValueIsNeverInspected := by
  intro f s t hsink hstep
  rcases hr : s.env.resetLine
  · rcases hs : s.seq with _ | ⟨op, idx⟩
    · have hidle : Idle (mapErrors f s) := ⟨hs, hr⟩
      have hfetch := fetch_mapErrors f s
      rcases hf : fetch s with _ | u | ⟨i, u⟩ <;> rw [hf] at hfetch
      · obtain rfl := Host.Outcome.next.inj (hstep.symm.trans (step_of_fetch_wait s ⟨hs, hr⟩ hf))
        exact step_of_fetch_wait _ hidle hfetch
      · obtain rfl := Host.Outcome.next.inj (hstep.symm.trans (step_of_fetch_illegal s u ⟨hs, hr⟩ hf))
        rw [step_of_fetch_illegal _ _ hidle hfetch]
        exact congrArg _ (finish_mapErrors f u (.refused .illegalRequest) u.phase)
      · have hu : u.seq = .idle := (fetch_request_seq s u i hf).trans hs
        rw [step_of_fetch_request s u i ⟨hs, hr⟩ hf, exec_eq_operate, operate_idle _ u hu] at hstep
        obtain rfl := Host.Outcome.next.inj hstep
        rw [step_of_fetch_request _ _ i hidle hfetch, exec_eq_operate,
          operate_idle _ (mapErrors f u) hu, offer_mapErrors]
    · obtain rfl := Host.Outcome.next.inj (hstep.symm.trans (step_running s op idx hs hr))
      rw [step_running (mapErrors f s) op idx hs hr, perform_mapErrors f _ idx s hsink]
  · obtain rfl := Host.Outcome.next.inj (hstep.symm.trans (step_reset s hr))
    exact step_reset (mapErrors f s) hr

end Sys2Proof.Machine
end

section
/-! PROOFS. Every request that is not refused completes at the cost of the table when the sink accepts its writes
(20_memory.md R67, 70_reset_and_hazards.md R251). -/

namespace Sys2Proof.Machine

/-! ### The writes of an operation -/

/-- Is an event, as an operation gives it, a bus write? -/
def isOut : Micro → Bool
  | .out _ => true
  | .dms _ => false
  | .dus _ => false

theorem isWrite_eventOf (c : Config) (r : Regs) (m : Micro) : isWrite (eventOf c r m) = isOut m := by
  cases m <;> rfl

/-- A byte of a text has the writes of one `SEND`, whatever the registers hold. -/
theorem isOut_printByte (c : Config) (r : Regs) (b : Byte) :
    (printByte c r b).map isOut = (send c b .command).map isOut := by
  unfold printByte
  split <;> rfl

/-- Where the writes of an operation stand does not depend on the registers. -/
theorem isOut_plan (i : Instr) (c : Config) (r r' : Regs) :
    ((operationOf i).plan c r).map isOut = ((operationOf i).plan c r').map isOut := by
  cases i
  case print text => simp only [operationOf, opPrint, List.map_flatMap, isOut_printByte]
  all_goals rfl

theorem countP_isOut_send (c : Config) (data : Byte) (role : Role) : (send c data role).countP isOut = 6 := rfl

/-- Lists of pieces with the same number of writes. -/
theorem countP_isOut_flatMap {α : Type} (g : α → List Micro) (k : Nat) (h : ∀ a, (g a).countP isOut = k)
    (l : List α) : (l.flatMap g).countP isOut = k * l.length := by
  simp [List.countP_flatMap, Function.comp_def, h, Nat.mul_comm]

theorem countP_isOut_printByte (c : Config) (r : Regs) (b : Byte) : (printByte c r b).countP isOut = 6 := by
  unfold printByte
  split <;> rfl

/-- Every operation has as many writes as the cost table says (R251). -/
theorem countP_isOut_plan (i : Instr) (hwf : i.wf = true) (c : Config) (r : Regs) :
    ((operationOf i).plan c r).countP isOut = i.writeCount := by
  cases i
  case createChar location bitmap =>
    have hlen : bitmap.length = 8 := by simpa [Instr.wf] using hwf
    rw [plan_createChar, List.countP_append, countP_isOut_flatMap _ 6 (fun _ => countP_isOut_send c _ _), hlen]
    rfl
  case print text => exact countP_isOut_flatMap _ 6 (countP_isOut_printByte c r) text
  all_goals rfl

/-- How many writes an operation has from the event of index `idx` on. -/
def writesLeft (i : Instr) (c : Config) (r : Regs) (idx : Nat) : Nat :=
  (((operationOf i).plan c r).drop idx).countP isOut

theorem writesLeft_regs (i : Instr) (c : Config) (r r' : Regs) (idx : Nat) :
    writesLeft i c r idx = writesLeft i c r' idx := by
  have hcount : ∀ l : List Micro, l.countP isOut = (l.map isOut).countP id := fun l => by
    rw [List.countP_map]; rfl
  rw [writesLeft, writesLeft, hcount, hcount, List.map_drop, List.map_drop, isOut_plan i c r r']

theorem writesLeft_zero (i : Instr) (hwf : i.wf = true) (c : Config) (r : Regs) :
    writesLeft i c r 0 = i.writeCount :=
  countP_isOut_plan i hwf c r

theorem writesLeft_past_end (i : Instr) (hwf : i.wf = true) (c : Config) (r : Regs) :
    writesLeft i c r i.eventCount = 0 := by
  rw [writesLeft, ← length_plan i hwf c r, List.drop_length, List.countP_nil]

theorem writesLeft_succ (i : Instr) (c : Config) (r : Regs) (idx : Nat) (m : Micro)
    (h : ((operationOf i).plan c r)[idx]? = some m) :
    writesLeft i c r idx = (if isOut m then 1 else 0) + writesLeft i c r (idx + 1) := by
  obtain ⟨hlt, rfl⟩ := List.getElem?_eq_some_iff.mp h
  rw [writesLeft, List.drop_eq_getElem_cons hlt, List.countP_cons, Nat.add_comm]
  rfl

/-! ### The run -/

/-- From its arrival before the event of index `idx`, the operation of `i` ends with `Ok` after exactly the events that
are left, every one of them accepted and recorded, with `w` writes among them. -/
def EndsAccepted (i : Instr) (idx w : Nat) (s : State) : Prop :=
  ∃ t evs, run (i.eventCount - idx) (arrive (operationOf i) idx s) = .next t ∧ t.seq = .idle ∧
    t.phase = (operationOf i).phaseOk s.phase ∧ t.result = .ok ∧ t.env.results = s.env.results ++ [.ok] ∧
    t.env.trace = s.env.trace ++ accepted evs ∧ evs.length = i.eventCount - idx ∧ evs.countP isWrite = w

theorem endsAccepted_at_end (i : Instr) (hwf : i.wf = true) (s : State) : EndsAccepted i i.eventCount 0 s := by
  rcases arrive_operationOf_cases i i.eventCount s with ⟨hlt, _⟩ | ⟨_, h⟩
  · exact absurd hlt (by simp [length_plan i hwf])
  · refine ⟨s.finish .ok ((operationOf i).phaseOk s.phase), [], ?_, by simp⟩
    rw [Nat.sub_self, run_zero, h]

/-- One accepted event of the operation, and the rest of it. -/
theorem endsAccepted_step (i : Instr) (idx n : Nat) (s : State) (m : Micro) (hidx : idx < i.eventCount)
    (hwf : i.wf = true) (hr : s.env.resetLine = false)
    (hm : ((operationOf i).plan s.cfg ((operationOf i).enter idx s.regs))[idx]? = some m)
    (hbus : BusAccepts ((if isOut m then 1 else 0) + n) s)
    (hrest : ∀ u : State, u.cfg = s.cfg → u.env.resetLine = false → BusAccepts n u →
      EndsAccepted i (idx + 1) n u) :
    EndsAccepted i idx ((if isOut m then 1 else 0) + n) s := by
  rcases arrive_operationOf_cases i idx s with ⟨_, harrive⟩ | ⟨hle, _⟩
  · set r := (operationOf i).enter idx s.regs
    set u : State := { s with regs := r, seq := .running i idx } with hu
    have hout := isWrite_eventOf s.cfg r m
    obtain ⟨herr, htrace, hleft⟩ :=
      afterEvent_of_busAccepts (eventOf s.cfg r m) n u (by rw [hout]; exact hbus)
    have hstep : step u = .next (arrive (operationOf i) (idx + 1) (afterEvent (eventOf s.cfg r m) u)) := by
      rw [step_running u i idx rfl hr, perform_at _ idx u m hm]
      simp only [hu] at herr ⊢
      rw [herr]
    obtain ⟨t, evs, hrun, hidle, hphase, hres, hresults, hall, hlen, hcount⟩ :=
      hrest (afterEvent (eventOf s.cfg r m) u) (by simp [hu]) (by simpa [hu] using hr) hleft
    refine ⟨t, eventOf s.cfg r m :: evs, ?_, hidle, by simpa [hu] using hphase, hres,
      by simpa [hu] using hresults, ?_, ?_, ?_⟩
    · rw [harrive, show i.eventCount - idx = (i.eventCount - (idx + 1)) + 1 by omega, run_succ _ u _ hstep, hrun]
    · rw [hall, htrace, List.append_assoc]
      rfl
    · rw [List.length_cons, hlen]
      omega
    · rw [List.countP_cons, hcount, hout, Nat.add_comm]
  · rw [length_plan i hwf] at hle
    omega

/-- An operation whose writes the sink accepts runs to its end, by induction on the events that are left. -/
theorem endsAccepted_of_busAccepts (i : Instr) (hwf : i.wf = true) : ∀ (left idx : Nat) (s : State),
    idx + left = i.eventCount → s.env.resetLine = false → BusAccepts (writesLeft i s.cfg s.regs idx) s →
    EndsAccepted i idx (writesLeft i s.cfg s.regs idx) s
  | 0, idx, s, hleft, _, _ => by
    obtain rfl : idx = i.eventCount := hleft
    rw [writesLeft_past_end i hwf]
    exact endsAccepted_at_end i hwf s
  | left + 1, idx, s, hleft, hr, hbus => by
    set r := (operationOf i).enter idx s.regs
    have hidx : idx < ((operationOf i).plan s.cfg r).length := by rw [length_plan i hwf]; omega
    have hm := List.getElem?_eq_getElem hidx
    rw [writesLeft_regs i s.cfg s.regs r idx, writesLeft_succ i s.cfg r idx _ hm] at hbus ⊢
    refine endsAccepted_step i idx _ s _ (by omega) hwf hr hm hbus fun u hcfg hline hu => ?_
    have hsame : writesLeft i s.cfg r (idx + 1) = writesLeft i u.cfg u.regs (idx + 1) :=
      hcfg ▸ writesLeft_regs i s.cfg r u.regs (idx + 1)
    rw [hsame] at hu ⊢
    exact endsAccepted_of_busAccepts i hwf left (idx + 1) u (by omega) hline hu

/-- Settles O43: the request is accepted, and its operation runs from the arrival before its first event to its end. -/
theorem everyRequestCompletesAtItsCost : Obligations.EveryRequestCompletesAtItsCost := by
  intro s i hwf ⟨hidle, hr⟩ hphase hbad hbus
  have haccept : exec i s = .next (arrive (operationOf i) 0 s) := by
    rw [exec_eq_operate, operate_idle _ s hidle, offer_accepts i s hphase hbad]
  rw [← writesLeft_zero i hwf s.cfg s.regs] at hbus
  obtain ⟨t, evs, hrun, hseq, hend, hres, hresults, htrace, hlen, hcount⟩ :=
    endsAccepted_of_busAccepts i hwf i.eventCount 0 s (Nat.zero_add _) hr hbus
  rw [writesLeft_zero i hwf] at hcount
  refine ⟨_, t, accepted evs, haccept, hrun, hseq, ?_, hres, hresults, htrace, by simpa using hlen, ?_, by simp⟩
  · rw [hend, operationOf_phaseOk]
    rcases hphase with h | h <;> simp [h]
  · rw [← List.countP_eq_length_filter, List.countP_map, ← hcount]
    rfl

end Sys2Proof.Machine
end

section
/-! PROOFS. Refusals (60_exceptions.md R211). -/

namespace Sys2Proof.Machine

theorem offer_notReady (i : Instr) (s : State) (hi : i.isConstruct = false) (hphase : s.phase ≠ .ready) :
    offer (operationOf i) s = s.refuse .notReady := by
  have hneeds : (operationOf i).needsReady = true := by simp [operationOf_needsReady, hi]
  rcases offer_cases (operationOf i) s with ⟨_, _, h⟩ | ⟨hready, _⟩ | ⟨hready, _⟩
  · exact h
  all_goals simp [hneeds, hphase] at hready

theorem offer_badConfig (i : Instr) (s : State) (hphase : i.isConstruct = true ∨ s.phase = .ready)
    (hbad : i.badConfig s.cfg s.regs = true) : offer (operationOf i) s = s.refuse .badConfig := by
  rcases offer_cases (operationOf i) s with ⟨hneeds, hnot, _⟩ | ⟨_, _, h⟩ | ⟨_, hgood, _⟩
  · rcases hphase with hi | hready
    · simp [operationOf_needsReady, hi] at hneeds
    · exact absurd hready hnot
  · exact h
  · rw [operationOf_badConfig, hbad] at hgood
    cases hgood

/-- Settles O13: the fetch finds the word illegal; the offer looks at the phase first and at the operands second. -/
theorem refusalsInOrder : Obligations.RefusalsInOrder := by
  refine ⟨fun s w rest hidle hreq hlen hdec => ?_, fun s i hs hi hphase => ?_, fun s i hs hphase hbad => ?_⟩
  · have hfetch := fetch_of_illegal s w rest _ _ hreq (List.take_append_drop (payloadLength w) _).symm
      (List.length_take_of_le hlen) hdec
    rw [step_of_fetch_illegal s _ hidle hfetch]
    rfl
  · rw [exec_eq_operate, operate_idle _ s hs, offer_notReady i s hi hphase]
    rfl
  · rw [exec_eq_operate, operate_idle _ s hs, offer_badConfig i s hphase hbad]
    rfl

end Sys2Proof.Machine
end

section
/-! PROOFS. A failed bus write that is not caught (60_exceptions.md R203 to R205). -/

namespace Sys2Proof.Machine

/-- Outside the data bytes of `CREATE_CHAR` in swallow mode no error is caught (R203). -/
theorem resume_none (i : Instr) (c : Config) (idx : Nat)
    (h : ¬ ((∃ l b, i = .createChar l b) ∧ c.createCharErrors = .swallow ∧ 10 ≤ idx)) :
    (operationOf i).resume c idx = none := by
  rcases hres : (operationOf i).resume c idx with _ | next
  · rfl
  · obtain ⟨hcreate, hswallow, hdata, -⟩ := resume_some i c idx next hres
    exact absurd ⟨hcreate, hswallow, hdata⟩ h

/-- Settles O14: the step is the event of the index, whose error goes to `finish` uncaught. -/
theorem failedWriteAborts : Obligations.FailedWriteAborts := by
  intro s t op idx a v e hs hr hstep htrace hcaught
  obtain rfl := Host.Outcome.next.inj (hstep.symm.trans (step_running s op idx hs hr))
  obtain ⟨m, hm, hafter⟩ := perform_records (operationOf op) idx s _ htrace
  obtain ⟨hev, hanswer⟩ : eventOf s.cfg s.regs m = .w a v ∧ s.env.nextAnswer = .err e := by
    cases m with
    | out data => simpa [eventOf] using hafter
    | dms n => simp [eventOf] at hafter
    | dus n => simp [eventOf] at hafter
  have herr : errorOf (.w a v) s = some e := by simp [errorOf, hanswer]
  have hperform : perform (operationOf op) idx s =
      (afterEvent (.w a v) s).finish (.err e) ((operationOf op).phaseErr s.phase) := by
    rw [perform_at _ idx s m hm, hev, herr]
    exact afterWrite_uncaught _ idx e _ (resume_none op _ idx (by simpa using hcaught))
  refine ⟨hanswer, ?_⟩
  rw [hperform, operationOf_phaseErr]
  simp [afterEvent, State.finish, hanswer]

end Sys2Proof.Machine
end

section
/-! PROOFS. The delays an operation requests (60_exceptions.md R215, 70_reset_and_hazards.md R250). -/

namespace Sys2Proof.Machine

/-- An event, as an operation gives it, is no delay or one of a configured amount (R215). -/
def ConfiguredDelay (c : Config) : Micro → Prop
  | .out _ => True
  | .dms n => n = c.tPowerupMs ∨ n = c.tBlMs ∨ n = c.tFsMs ∨ n = c.tClearMs
  | .dus n => n = c.tEnUs

section plans

variable (c : Config)

theorem write4bits_configuredDelay (v : Byte) : ∀ m ∈ write4bits c v, ConfiguredDelay c m := by
  simp [write4bits, pulseEnable, expanderWrite, ConfiguredDelay]

theorem send_configuredDelay (data : Byte) (role : Role) : ∀ m ∈ send c data role, ConfiguredDelay c m :=
  List.forall_mem_append.mpr ⟨write4bits_configuredDelay c _, write4bits_configuredDelay c _⟩

theorem command_configuredDelay (data : Byte) : ∀ m ∈ command c data, ConfiguredDelay c m :=
  send_configuredDelay c data .command

theorem rawNibble_configuredDelay (v : Byte) : ∀ m ∈ rawNibble c v, ConfiguredDelay c m :=
  List.forall_mem_append.mpr ⟨write4bits_configuredDelay c v, by simp [ConfiguredDelay]⟩

/-- `CLEAR` and `HOME` are a command and the clear delay (R160, R161). -/
theorem commandAndWait_configuredDelay (data : Byte) :
    ∀ m ∈ command c data ++ [.dms c.tClearMs], ConfiguredDelay c m :=
  List.forall_mem_append.mpr ⟨command_configuredDelay c data, by simp [ConfiguredDelay]⟩

theorem init_configuredDelay (r : Regs) : ∀ m ∈ init c r, ConfiguredDelay c m := by
  have hpower : ∀ m ∈ initPowerWait c, ConfiguredDelay c m := by simp [initPowerWait, ConfiguredDelay]
  have hbacklight : ∀ m ∈ initBacklight c r, ConfiguredDelay c m := by
    simp [initBacklight, expanderWrite, ConfiguredDelay]
  have hraw := rawNibble_configuredDelay c
  simp only [init, initFs8, initFs4, List.forall_mem_append, and_assoc]
  exact ⟨hpower, hbacklight, hraw _, hraw _, hraw _, hraw _, command_configuredDelay c _,
    commandAndWait_configuredDelay c _, command_configuredDelay c _⟩

theorem printByte_configuredDelay (r : Regs) (b : Byte) : ∀ m ∈ printByte c r b, ConfiguredDelay c m := by
  unfold printByte
  split
  · exact command_configuredDelay c _
  · exact send_configuredDelay c b _

theorem plan_configuredDelay (i : Instr) (r : Regs) :
    ∀ m ∈ (operationOf i).plan c r, ConfiguredDelay c m := by
  cases i
  case construct => exact init_configuredDelay c r
  case clear | home => exact commandAndWait_configuredDelay c _
  case setBacklight | expanderWrite | pulseEnable =>
    simp [operationOf, opSetBacklight, opExpanderWrite, opPulseEnable, pulseEnable, expanderWrite, ConfiguredDelay]
  case write4bits => exact write4bits_configuredDelay c _
  case createChar location bitmap =>
    rw [plan_createChar]
    refine List.forall_mem_append.mpr ⟨command_configuredDelay c _, List.forall_mem_flatMap.mpr fun b _ => ?_⟩
    exact send_configuredDelay c b _
  case print text => exact List.forall_mem_flatMap.mpr fun b _ => printByte_configuredDelay c r b
  all_goals exact send_configuredDelay c _ _

end plans

/-- Settles O37: the entry is that of an event of a plan; a delay in a plan has a configured amount, and its answer is
`done`. -/
theorem delaysAreTheConfiguredOnes : Obligations.DelaysAreTheConfiguredOnes := by
  intro s t e hstep htrace
  obtain ⟨op, idx, m, -, hm, hafter⟩ := step_records s t e hstep htrace
  have hdelay := plan_configuredDelay s.cfg op s.regs m (List.mem_of_getElem? hm)
  cases m with
  | out data =>
    obtain rfl : (⟨.w s.regs.addr (data ||| bl s.cfg s.regs), s.env.nextAnswer⟩ : Entry) = e := by
      simpa [eventOf] using hafter
    exact ⟨nofun, nofun⟩
  | dms n =>
    obtain rfl : (⟨.dms n, .ok⟩ : Entry) = e := by simpa [eventOf] using hafter
    refine ⟨fun n' h => ?_, nofun⟩
    obtain rfl := Event.dms.inj h
    exact ⟨rfl, hdelay⟩
  | dus n =>
    obtain rfl : (⟨.dus n, .ok⟩ : Entry) = e := by simpa [eventOf] using hafter
    refine ⟨nofun, fun n' h => ?_⟩
    obtain rfl := Event.dus.inj h
    exact ⟨rfl, hdelay⟩

end Sys2Proof.Machine
end

section
/-! PROOFS. Hardware reset (70_reset_and_hazards.md R230). -/

namespace Sys2Proof.Machine

/-- Settles O10: the reset step is `hardwareReset`; the idle step of an unconstructed block waits, refuses or accepts,
and accepts nothing but `CONSTRUCT`, which then stands before its first event. -/
theorem hardwareResetAbandons : Obligations.HardwareResetAbandons := by
  refine ⟨fun s hr => ⟨_, step_reset s hr, rfl, rfl, rfl, rfl⟩, rfl, rfl, rfl, rfl,
    fun s t hphase hidle hstep => ?_⟩
  by_cases hr : s.env.resetLine = true
  · obtain rfl := Host.Outcome.next.inj (hstep.symm.trans (step_reset s hr))
    exact ⟨rfl, rfl, .inl rfl⟩
  · rcases step_idle_outcomes s t hidle (by simpa using hr) hstep with
      rfl | ⟨w, code, rfl⟩ | ⟨w, i, hwf, hready, -, rfl⟩
    · exact ⟨rfl, hphase, .inl hidle⟩
    · exact ⟨rfl, hphase, .inl rfl⟩
    · obtain ⟨addr, cols, rows, rfl⟩ := eq_construct_of_isConstruct i (hready.resolve_right (by simp [hphase]))
      exact ⟨arrive_trace _ 0 _, (arrive_start_phase _ hwf _).trans hphase,
        .inr ⟨addr, cols, rows, arrive_seq _ hwf 0 _⟩⟩

end Sys2Proof.Machine
end

section
/-! PROOFS. Where the pulses of an operation stand among its events (40_transport.md R121 to R123; 30_encoding.md R93;
41_init.md R150). -/

namespace Sys2Proof.Machine

/-! ### Events with pulses among them -/

section lists

variable {c : Config} {l l' : List Micro} {idx : Nat} {p q : Nat → Prop}

/-- A pulse of R121 begins at index `idx` of the events `l`. -/
def PulseAt (c : Config) (l : List Micro) (idx : Nat) : Prop := ∃ data, pulseEnable c data <+: l.drop idx

theorem PulseAt.append_right (h : PulseAt c l idx) (l' : List Micro) : PulseAt c (l ++ l') idx := by
  obtain ⟨data, hstarts⟩ := h
  exact ⟨data, by rw [List.drop_append]; exact hstarts.trans (List.prefix_append _ _)⟩

theorem PulseAt.append_left (h : PulseAt c l' idx) (l : List Micro) : PulseAt c (l ++ l') (l.length + idx) := by
  obtain ⟨data, hstarts⟩ := h
  exact ⟨data, by rwa [List.drop_length_add_append]⟩

/-- The enable-high write of a pulse, its delay, and its enable-low write (R121). -/
theorem PulseAt.events (h : PulseAt c l idx) :
    ∃ data, l[idx]? = some (.out (data ||| c.enBit)) ∧ l[idx + 1]? = some (.dus c.tEnUs) ∧
      l[idx + 2]? = some (.out (data &&& ~~~c.enBit)) := by
  obtain ⟨data, hstarts⟩ := h
  have hat : ∀ j (hj : j < 4), l[idx + j]? = some ((pulseEnable c data)[j]'hj) := fun j hj => by
    rw [← List.getElem?_drop]
    exact List.prefix_iff_getElem?.mp hstarts j hj
  exact ⟨data, hat 0 (by decide), hat 1 (by decide), hat 2 (by decide)⟩

/-- In the events `l` a pulse begins at every index of `p`, and every write at another index has enable low. -/
structure PulsesExactlyAt (c : Config) (p : Nat → Prop) (l : List Micro) : Prop where
  pulse : ∀ idx < l.length, p idx → PulseAt c l idx
  low : ∀ idx data, ¬ p idx → l[idx]? = some (.out data) → enableLine data = false

theorem PulsesExactlyAt.congr (h : PulsesExactlyAt c q l) (n : Nat) (hn : l.length = n)
    (hpq : ∀ idx < n, p idx ↔ q idx) : PulsesExactlyAt c p l where
  pulse idx hidx hp := h.pulse idx hidx ((hpq idx (hn ▸ hidx)).mp hp)
  low idx data hp hdata := by
    obtain ⟨hidx, -⟩ := List.getElem?_eq_some_iff.mp hdata
    exact h.low idx data (mt (hpq idx (hn ▸ hidx)).mpr hp) hdata

theorem PulsesExactlyAt.append (h : PulsesExactlyAt c p l) (n : Nat) (hn : l.length = n)
    (h' : PulsesExactlyAt c (fun idx => p (n + idx)) l') : PulsesExactlyAt c p (l ++ l') where
  pulse idx hidx hp := by
    subst hn
    rcases Nat.lt_or_ge idx l.length with hlt | hge
    · exact (h.pulse idx hlt hp).append_right l'
    · obtain ⟨j, rfl⟩ := Nat.exists_eq_add_of_le hge
      exact (h'.pulse j (by simpa using hidx) hp).append_left l
  low idx data hp hdata := by
    subst hn
    rcases Nat.lt_or_ge idx l.length with hlt | hge
    · exact h.low idx data hp (by rwa [List.getElem?_append_left hlt] at hdata)
    · obtain ⟨j, rfl⟩ := Nat.exists_eq_add_of_le hge
      exact h'.low j data hp (by rwa [List.getElem?_append_right hge, Nat.add_sub_cancel_left] at hdata)

/-- Events whose writes all have enable low. -/
theorem pulsesExactlyAt_none (hlow : ∀ data, .out data ∈ l → enableLine data = false) (n : Nat)
    (hn : l.length = n) (hp : ∀ idx < n, ¬ p idx) : PulsesExactlyAt c p l where
  pulse idx hidx h := absurd h (hp idx (hn ▸ hidx))
  low _ data _ hdata := hlow data (List.mem_of_getElem? hdata)

/-- Pieces of one length `n`, with their pulses at the same indices. -/
theorem pulsesExactlyAt_flatMap {α : Type} (f : α → List Micro) (n : Nat) (hn : ∀ a, (f a).length = n)
    (hp : ∀ idx, p (n + idx) ↔ p idx) (hf : ∀ a, PulsesExactlyAt c p (f a)) :
    ∀ as : List α, PulsesExactlyAt c p (as.flatMap f)
  | [] => ⟨fun _ h => absurd h (Nat.not_lt_zero _), fun _ _ _ h => by simp at h⟩
  | a :: as => (hf a).append n (hn a) ((pulsesExactlyAt_flatMap f n hn hp hf as).congr _ rfl fun idx _ => hp idx)

end lists

/-! ### The primitives -/

theorem printByte_eq_send (c : Config) (r : Regs) (b : Byte) :
    printByte c r b = send c (printedByte c r b) (printedRole b) := by
  unfold printByte printedByte printedRole
  split <;> rfl

section specConstants

variable {c : Config} (h : c.SpecConstants)
include h

theorem pulsesExactlyAt_pulseEnable (data : Byte) : PulsesExactlyAt c (· = 0) (pulseEnable c data) where
  pulse idx _ hidx := ⟨data, by rw [hidx]; exact List.prefix_rfl⟩
  low idx v hne hv := by
    have hlow : Micro.out (data &&& ~~~c.enBit) = .out v := by
      match idx with
      | 0 => exact absurd rfl hne
      | 1 | 3 => cases hv
      | 2 => exact Option.some.inj hv
      | n + 4 => cases hv
    obtain rfl := Micro.out.inj hlow
    exact enableLine_and_not_enBit h data

/-- A nibble transfer of a value with enable low has its pulse at index 1 (R93). -/
theorem pulsesExactlyAt_write4bits (v : Byte) (hv : enableLine v = false) :
    PulsesExactlyAt c (· = 1) (write4bits c v) := by
  have hfirst : PulsesExactlyAt c (· = 1) (expanderWrite v) :=
    pulsesExactlyAt_none (by simpa [expanderWrite] using hv) 1 rfl (by omega)
  exact hfirst.append 1 rfl ((pulsesExactlyAt_pulseEnable h v).congr 4 rfl (by omega))

/-- A logical byte is two nibble transfers (R123). -/
theorem pulsesExactlyAt_send (data : Byte) (role : Role) : PulsesExactlyAt c (· % 5 = 1) (send c data role) := by
  have htransfer : ∀ v, enableLine v = false →
      PulsesExactlyAt c (· % 5 = 1) (write4bits c (v ||| roleTag c role)) :=
    fun v hv => (pulsesExactlyAt_write4bits h _ ((enableLine_or_roleTag h v role).trans hv)).congr 5 rfl
      (by omega)
  have hhi : enableLine (hiNibble data) = false := by simp [enableLine, hiNibble]
  have hlo : enableLine (loNibble data) = false := by simp [enableLine, loNibble]
  exact (htransfer _ hhi).append 5 rfl ((htransfer _ hlo).congr 5 rfl (by omega))

/-- Logical bytes one after the other. -/
theorem pulsesExactlyAt_flatMap_send {α : Type} (data : α → Byte) (role : α → Role) (as : List α) :
    PulsesExactlyAt c (· % 5 = 1) (as.flatMap fun a => send c (data a) (role a)) :=
  pulsesExactlyAt_flatMap _ 10 (fun _ => length_send c _ _) (by omega) (fun a => pulsesExactlyAt_send h _ _) as

/-- A logical byte and a delay (R160, R161). -/
theorem pulsesExactlyAt_commandAndWait (data : Byte) :
    PulsesExactlyAt c (· % 5 = 1) (command c data ++ [.dms c.tClearMs]) :=
  (pulsesExactlyAt_send h data .command).append 10 rfl (pulsesExactlyAt_none (by simp) 1 rfl (by omega))

/-! ### Construction -/

/-- A raw nibble and a delay (R144, R145). -/
theorem pulsesExactlyAt_rawNibble (v : Byte) (hv : enableLine v = false) :
    PulsesExactlyAt c (· % 6 = 1) (rawNibble c v) :=
  ((pulsesExactlyAt_write4bits h v hv).congr 5 rfl (by omega)).append 5 rfl
    (pulsesExactlyAt_none (by simp) 1 rfl (by omega))

/-- The four raw nibbles of steps 3 and 4 (R144, R145). -/
theorem pulsesExactlyAt_rawNibbles : PulsesExactlyAt c (· % 6 = 1) (initFs8 c ++ initFs4 c) := by
  have hfs8 : PulsesExactlyAt c (· % 6 = 1) (rawNibble c (fs8BitNibble c)) :=
    pulsesExactlyAt_rawNibble h _ (by rw [fs8BitNibble_eq h]; rfl)
  have hfs4 : PulsesExactlyAt c (· % 6 = 1) (initFs4 c) :=
    pulsesExactlyAt_rawNibble h _ (by rw [fs4BitNibble_eq h]; rfl)
  exact ((hfs8.append 6 rfl (hfs8.congr 6 rfl (by omega))).append 12 rfl (hfs8.congr 6 rfl (by omega))).append 18 rfl
    (hfs4.congr 6 rfl (by omega))

/-- The pulses of `INIT` stand where the table of R150 has them. -/
theorem pulsesExactlyAt_init (r : Regs) :
    PulsesExactlyAt c (fun idx => (3 ≤ idx ∧ idx < 27 ∧ (idx - 3) % 6 = 1) ∨
      (27 ≤ idx ∧ idx < 47 ∧ (idx - 27) % 5 = 1) ∨ (48 ≤ idx ∧ (idx - 48) % 5 = 1)) (init c r) := by
  have hbacklight : ∀ data, .out data ∈ initPowerWait c ++ initBacklight c r → enableLine data = false := by
    rcases bl_eq_zero_or_bit3 h r with hb | hb <;>
      simp [initPowerWait, initBacklight, expanderWrite, hb, enableLine]
  have hinit : init c r = (initPowerWait c ++ initBacklight c r) ++ (initFs8 c ++ initFs4 c) ++
      command c (fsFull c) ++ clearBody c ++ command c (entryLtr c) := by
    simp only [init, List.append_assoc]
  rw [hinit]
  refine ((((pulsesExactlyAt_none hbacklight 3 rfl ?_).append 3 rfl
    ((pulsesExactlyAt_rawNibbles h).congr 24 rfl ?_)).append 27 rfl
    ((pulsesExactlyAt_send h _ _).congr 10 rfl ?_)).append 37 rfl
    ((pulsesExactlyAt_commandAndWait h _).congr 11 rfl ?_)).append 48 rfl
    ((pulsesExactlyAt_send h _ _).congr 10 rfl ?_)
  all_goals omega

/-! ### Every operation -/

/-- The pulses of an operation begin where `enableHighAt` says and every other write of it has enable low; only
`EXPANDER_WRITE` and `WRITE4BITS`, whose first write is their operand, may differ in that. -/
theorem pulsesExactlyAt_plan (i : Instr) (hexpander : ∀ data, i ≠ .expanderWrite data)
    (hwrite4bits : ∀ value, i ≠ .write4bits value) (r : Regs) :
    PulsesExactlyAt c (fun idx => i.enableHighAt idx = true) ((operationOf i).plan c r) := by
  have hbytes : ∀ {l : List Micro}, (∀ idx, i.enableHighAt idx = decide (idx % 5 = 1)) →
      PulsesExactlyAt c (· % 5 = 1) l → PulsesExactlyAt c (fun idx => i.enableHighAt idx = true) l :=
    fun hi hl => hl.congr _ rfl fun idx _ => by rw [hi, decide_eq_true_iff]
  cases i
  case construct => exact (pulsesExactlyAt_init h r).congr _ rfl fun _ _ => decide_eq_true_iff
  case clear | home => exact hbytes (fun _ => rfl) (pulsesExactlyAt_commandAndWait h _)
  case setBacklight =>
    exact pulsesExactlyAt_none (by simp [operationOf, opSetBacklight, expanderWrite, enableLine]) 1 rfl nofun
  case createChar location bitmap =>
    refine hbytes (fun _ => rfl) ?_
    rw [plan_createChar]
    exact (pulsesExactlyAt_send h _ _).append 10 rfl
      ((pulsesExactlyAt_flatMap_send h id (fun _ => .registerSelect) bitmap).congr _ rfl (by omega))
  case print text =>
    refine hbytes (fun _ => rfl) ?_
    have hplan : (operationOf (.print text)).plan c r =
        text.flatMap fun b => send c (printedByte c r b) (printedRole b) :=
      congrArg (text.flatMap ·) (funext (printByte_eq_send c r))
    rw [hplan]
    exact pulsesExactlyAt_flatMap_send h _ _ text
  case pulseEnable data => exact (pulsesExactlyAt_pulseEnable h data).congr _ rfl fun _ _ => decide_eq_true_iff
  case expanderWrite data => exact absurd rfl (hexpander data)
  case write4bits value => exact absurd rfl (hwrite4bits value)
  all_goals exact hbytes (fun _ => rfl) (pulsesExactlyAt_send h _ _)

/-- At every index that `enableHighAt` marks, a pulse begins. -/
theorem pulseAt_of_enableHighAt (i : Instr) (r : Regs) (idx : Nat) (hidx : idx < ((operationOf i).plan c r).length)
    (hhigh : i.enableHighAt idx = true) : PulseAt c ((operationOf i).plan c r) idx := by
  by_cases hwrite4bits : ∃ value, i = .write4bits value
  · obtain ⟨value, rfl⟩ := hwrite4bits
    obtain rfl : idx = 1 := of_decide_eq_true hhigh
    exact ⟨value, List.prefix_rfl⟩
  · have hexpander : ∀ data, i ≠ .expanderWrite data := by rintro _ rfl; cases hhigh
    exact (pulsesExactlyAt_plan h i hexpander (not_exists.mp hwrite4bits) r).pulse idx hidx hhigh

/-- A write of a host operation has enable high exactly where a pulse begins. -/
theorem enableLine_of_isHost (i : Instr) (r : Regs) (idx : Nat) (data : Byte) (hhost : i.isHost = true)
    (hdata : ((operationOf i).plan c r)[idx]? = some (.out data)) : enableLine data = i.enableHighAt idx := by
  have hpulses := pulsesExactlyAt_plan h i (by rintro _ rfl; cases hhost) (by rintro _ rfl; cases hhost) r
  cases hhigh : i.enableHighAt idx with
  | false => exact hpulses.low idx data (by simp [hhigh]) hdata
  | true =>
    obtain ⟨hidx, -⟩ := List.getElem?_eq_some_iff.mp hdata
    obtain ⟨value, hwrite, -, -⟩ := (hpulses.pulse idx hidx hhigh).events
    obtain rfl : value ||| c.enBit = data := Micro.out.inj (Option.some.inj (hwrite.symm.trans hdata))
    exact enableLine_or_enBit h value

end specConstants

end Sys2Proof.Machine
end

section
/-! PROOFS. Enable left high by a pulse whose enable-low write fails (70_reset_and_hazards.md R243). -/

namespace Sys2Proof.Machine

/-- The event of the operation in progress, raising no error, leads to the arrival before the next one (R32). -/
theorem step_event (i : Instr) (idx : Nat) (s : State) (m : Micro) (hs : s.seq = .running i idx)
    (hr : s.env.resetLine = false) (hm : ((operationOf i).plan s.cfg s.regs)[idx]? = some m)
    (herr : errorOf (eventOf s.cfg s.regs m) s = none) :
    step s = .next (arrive (operationOf i) (idx + 1) (afterEvent (eventOf s.cfg s.regs m) s)) := by
  rw [step_running s i idx hs hr, perform_at _ idx s m hm, herr]

/-- The state after the event of `m`, with the operation of `i` before its event of index `next`. -/
abbrev pastEvent (i : Instr) (next : Nat) (m : Micro) (s : State) : State :=
  { afterEvent (eventOf s.cfg s.regs m) s with seq := .running i next }

/-- An event that raises no error, with no register write between it and the next one: the block stands before that
one, its registers as they were. -/
theorem step_event_within (i : Instr) (idx : Nat) (s : State) (m m' : Micro) (hs : s.seq = .running i idx)
    (hr : s.env.resetLine = false) (hm : ((operationOf i).plan s.cfg s.regs)[idx]? = some m)
    (hm' : ((operationOf i).plan s.cfg s.regs)[idx + 1]? = some m')
    (herr : errorOf (eventOf s.cfg s.regs m) s = none) (henter : (operationOf i).enter (idx + 1) s.regs = s.regs) :
    step s = .next (pastEvent i (idx + 1) m s) := by
  obtain ⟨hlt, -⟩ := List.getElem?_eq_some_iff.mp hm'
  have hsame : (operationOf i).enter (idx + 1) (afterEvent (eventOf s.cfg s.regs m) s).regs =
      (afterEvent (eventOf s.cfg s.regs m) s).regs := by rw [afterEvent_regs, henter]
  rw [step_event i idx s m hs hr hm herr,
    arrive_running _ _ _ (by rwa [hsame, afterEvent_cfg, afterEvent_regs]), hsame, operationOf_instr]

/-- Within a pulse no register is written. -/
theorem enter_within_pulse (i : Instr) (idx j : Nat) (r : Regs) (hhigh : i.enableHighAt idx = true) (hj : 0 < j)
    (hj' : j ≤ 2) : (operationOf i).enter (idx + j) r = r := by
  have hpos : 0 < idx + j := by omega
  cases i
  case print text =>
    have hfifth : idx % 5 = 1 := of_decide_eq_true hhigh
    have hstart : ¬ (idx + j) % sendLength = 0 := by rw [sendLength]; omega
    exact if_neg fun h => hstart h.1
  case construct | setDisplay | setCursor | setBlink | setBacklight =>
    simp only [enter_construct, enter_setDisplay, enter_setCursor, enter_setBlink, enter_setBacklight,
      atStart_of_pos _ _ r hpos]
  all_goals rfl

/-- A pulse whose enable-low write fails is three steps: two events recorded as accepted, and the failed write. -/
theorem run_failed_pulse (i : Instr) (idx : Nat) (s : State) (high low : Byte) (e : Err) (rest : List Answer)
    (hs : s.seq = .running i idx) (hr : s.env.resetLine = false) (hhigh : i.enableHighAt idx = true)
    (hfirst : ((operationOf i).plan s.cfg s.regs)[idx]? = some (.out high))
    (hdelay : ((operationOf i).plan s.cfg s.regs)[idx + 1]? = some (.dus s.cfg.tEnUs))
    (hlast : ((operationOf i).plan s.cfg s.regs)[idx + 2]? = some (.out low))
    (hsink : s.env.sink = .ok :: .err e :: rest) :
    ∃ u : State, run 3 s = .next (afterWrite (operationOf i) (idx + 2) (.err e) u) ∧ u.cfg = s.cfg ∧
      u.env.trace = s.env.trace ++ [⟨.w s.regs.addr (high ||| bl s.cfg s.regs), .ok⟩, ⟨.dus s.cfg.tEnUs, .ok⟩,
        ⟨.w s.regs.addr (low ||| bl s.cfg s.regs), .err e⟩] := by
  set u1 := pastEvent i (idx + 1) (.out high) s
  set u2 := pastEvent i (idx + 2) (.dus s.cfg.tEnUs) u1
  set u3 := afterEvent (eventOf s.cfg s.regs (.out low)) u2
  have hanswer : s.env.nextAnswer = .ok := by rw [Env.nextAnswer, hsink]
  have hanswer2 : u2.env.nextAnswer = .err e := by
    have hsink2 : u2.env.sink = .err e :: rest := congrArg List.tail hsink
    rw [Env.nextAnswer, hsink2]
  have hstep1 : step s = .next u1 :=
    step_event_within i idx s _ _ hs hr hfirst hdelay (by simp [eventOf, errorOf, hanswer])
      (enter_within_pulse i idx 1 _ hhigh (by omega) (by omega))
  have hstep2 : step u1 = .next u2 :=
    step_event_within i (idx + 1) u1 _ _ rfl hr hdelay hlast rfl
      (enter_within_pulse i idx 2 _ hhigh (by omega) (by omega))
  have hstep3 : step u2 = .next (afterWrite (operationOf i) (idx + 2) (.err e) u3) := by
    have herr : errorOf (eventOf u2.cfg u2.regs (.out low)) u2 = some e := by simp [eventOf, errorOf, hanswer2]
    rw [step_running u2 i (idx + 2) rfl hr, perform_at _ _ u2 _ hlast, herr]
    rfl
  have htrace : u3.env.trace = s.env.trace ++ [⟨.w s.regs.addr (high ||| bl s.cfg s.regs), s.env.nextAnswer⟩] ++
      [⟨.dus s.cfg.tEnUs, .ok⟩] ++ [⟨.w s.regs.addr (low ||| bl s.cfg s.regs), u2.env.nextAnswer⟩] := rfl
  refine ⟨u3, by rw [run_succ 2 s u1 hstep1, run_succ 1 u1 u2 hstep2, run_succ 0 u2 _ hstep3, run_zero], rfl, ?_⟩
  rw [htrace, hanswer, hanswer2, List.append_assoc, List.append_assoc]
  rfl

/-- The two wire bytes of a pulse differ in the enable bit (R93, R121). -/
theorem pulse_wireBytes (data en b : Byte) : data ||| en ||| b = (data &&& ~~~en ||| b) ||| en := by
  ext k hk
  simp only [BitVec.getElem_or, BitVec.getElem_and, BitVec.getElem_not]
  cases data[k] <;> cases en[k] <;> cases b[k] <;> rfl

/-- Outside swallow mode a failed write of a pulse is not caught: a pulse that begins before the data bytes of
`CREATE_CHAR` ends before them. -/
theorem resume_none_of_pulse (i : Instr) (c : Config) (idx : Nat) (hhigh : i.enableHighAt idx = true)
    (h : ¬ ((∃ l b, i = .createChar l b) ∧ c.createCharErrors = .swallow ∧ 10 ≤ idx)) :
    (operationOf i).resume c (idx + 2) = none := by
  refine resume_none i c (idx + 2) fun ⟨⟨l, b, hi⟩, hswallow, hdata⟩ => h ⟨⟨l, b, hi⟩, hswallow, ?_⟩
  subst hi
  have hfifth : idx % 5 = 1 := of_decide_eq_true hhigh
  omega

section views

variable (a : DevAddr) (trace : List Entry) (high low n : Byte) (e : Err)

theorem lastAccepted_failed_pulse :
    lastAccepted a (trace ++ [⟨.w a high, .ok⟩, ⟨.dus n, .ok⟩, ⟨.w a low, .err e⟩]) = some high := by
  simp [lastAccepted, List.foldl_append]

theorem linesFrom_failed_pulse (u : Nat → Byte) (now : Byte) :
    linesFrom u a 0 now (trace ++ [⟨.w a high, .ok⟩, ⟨.dus n, .ok⟩, ⟨.w a low, .err e⟩]) =
      u (trace.length + 2) := by
  simp [linesFrom_append, linesFrom]

end views

/-- The first write of a host operation begins no pulse. -/
theorem enableHighAt_first (i : Instr) (hhost : i.isHost = true) :
    i.enableHighAt (if i.isConstruct then 1 else 0) = false := by
  cases i
  case pulseEnable => cases hhost
  all_goals rfl

/-- Settles O42: the three steps of a pulse that begins at an index of `enableHighAt`, of which the last records the
failed write; and the enable line of the write at any index of a host operation. -/
theorem enableLeftHigh : Obligations.EnableLeftHigh := by
  refine ⟨fun s op idx e rest hspec hs hwf hidx hhigh hr hsink => ?_,
    fun s t op idx a v x hspec hs hhost hr hstep htrace => ?_⟩
  · obtain ⟨data, hfirst, hdelay, hlast⟩ :=
      (pulseAt_of_enableHighAt hspec op s.regs idx (by rwa [length_plan op hwf]) hhigh).events
    obtain ⟨u, hrun, hcfg, htrace⟩ := run_failed_pulse op idx s _ _ e rest hs hr hhigh hfirst hdelay hlast hsink
    refine ⟨_, _, _, hrun, by rw [afterWrite_trace, htrace], pulse_wireBytes data _ _, ?_, ?_, ?_, fun hcaught => ?_,
      fun u' now hlines => ?_⟩
    · rw [enableLine_or_bl hspec, enableLine_or_enBit hspec]
    · rw [enableLine_or_bl hspec, enableLine_and_not_enBit hspec]
    · rw [afterWrite_trace, htrace, lastAccepted_failed_pulse]
    · rw [afterWrite_uncaught _ _ e u (hcfg ▸ resume_none_of_pulse op s.cfg idx hhigh hcaught)]
      exact ⟨rfl, rfl⟩
    · rw [afterWrite_trace, htrace, linesFrom_failed_pulse, hlines]
  · have hline : enableLine v = op.enableHighAt idx := by
      obtain ⟨op', idx', m, hs', hm, hafter⟩ := step_records s t _ hstep htrace
      obtain ⟨rfl, rfl⟩ := Seq.running.inj (hs.symm.trans hs')
      cases m with
      | out data =>
        obtain ⟨⟨-, rfl⟩, -⟩ : (s.regs.addr = a ∧ data ||| bl s.cfg s.regs = v) ∧ s.env.nextAnswer = x := by
          simpa [eventOf] using hafter
        rw [enableLine_or_bl hspec, enableLine_of_isHost hspec op s.regs idx data hhost hm]
      | dms n => simp [eventOf] at hafter
      | dus n => simp [eventOf] at hafter
    exact ⟨hline, fun hidx => by rw [hline, hidx, enableHighAt_first op hhost]⟩

end Sys2Proof.Machine
end

section
/-! PROOFS. The first write of a host operation after a pulse was held (70_reset_and_hazards.md R243, R249). -/

namespace Sys2Proof.Machine

/-- An accepted write of a byte with enable low is latched where enable stood high before it (R53, R243). -/
theorem latchesFrom_accepted_write (u : Nat → Byte) (a : DevAddr) (k : Nat) (before v : Byte)
    (hv : enableLine v = false) :
    latchesFrom u a k before [⟨.w a v, .ok⟩] = if enableLine before then [Latch.of v] else [] := by
  cases hb : enableLine before <;> simp [latchesFrom, edge, hb, hv]

theorem linesFrom_accepted_write (u : Nat → Byte) (a : DevAddr) (now v : Byte) (trace : List Entry) :
    linesFrom u a 0 now (trace ++ [⟨.w a v, .ok⟩]) = v := by
  simp [linesFrom_append, linesFrom]

/-- The state in which the operation of `i`, just accepted, stands before its first event (R36, R140). -/
abbrev acceptedState (i : Instr) (s : State) : State :=
  { s with regs := (operationOf i).enter 0 s.regs, seq := .running i 0 }

/-- A request that has an event and is not refused is accepted by the idle block (R211, R36). -/
theorem exec_of_idle (i : Instr) (s : State) (hidle : s.seq = .idle)
    (hphase : i.isConstruct = true ∨ s.phase = .ready) (hbad : i.badConfig s.cfg s.regs = false)
    (hpos : 0 < ((operationOf i).plan s.cfg ((operationOf i).enter 0 s.regs)).length) :
    exec i s = .next (acceptedState i s) := by
  rw [exec_eq_operate, operate_idle _ _ hidle, offer_accepts i s hphase hbad, arrive_running _ _ _ hpos,
    operationOf_instr]

/-- A step at a write that the sink accepts (R120). -/
theorem step_accepted_write (i : Instr) (idx : Nat) (s : State) (data : Byte) (hs : s.seq = .running i idx)
    (hr : s.env.resetLine = false) (hdata : ((operationOf i).plan s.cfg s.regs)[idx]? = some (.out data))
    (hbus : BusAccepts 1 s) :
    ∃ t, step s = .next t ∧
      t.env.trace = s.env.trace ++ [⟨.w s.regs.addr (data ||| bl s.cfg s.regs), .ok⟩] := by
  obtain ⟨herr, htrace, -⟩ := afterEvent_of_busAccepts (.w s.regs.addr (data ||| bl s.cfg s.regs)) 0 s hbus
  exact ⟨_, step_event i idx s (.out data) hs hr hdata herr, (arrive_trace _ _ _).trans htrace⟩

/-- The first write of an operation that has an event: event 0, and event 1 of `CONSTRUCT`. -/
theorem plan_first_write (i : Instr) (c : Config) (r : Regs) (hpos : 0 < i.eventCount) :
    ∃ data, ((operationOf i).plan c r)[if i.isConstruct then 1 else 0]? = some (.out data) := by
  cases i
  case print text =>
    cases text with
    | nil => exact absurd hpos (Nat.lt_irrefl 0)
    | cons b bs =>
      have hplan : (operationOf (.print (b :: bs))).plan c r =
          send c (printedByte c r b) (printedRole b) ++ bs.flatMap (printByte c r) := by
        rw [← printByte_eq_send]
        exact List.flatMap_cons
      rw [hplan]
      exact ⟨_, rfl⟩
  all_goals exact ⟨_, rfl⟩

/-- An accepted operation as far as its first write, which the sink accepts: the power-up delay of `CONSTRUCT`
and the write are recorded. -/
theorem run_first_write (i : Instr) (s : State) (data : Byte) (hr : s.env.resetLine = false) (hbus : BusAccepts 1 s)
    (hdata : ((operationOf i).plan s.cfg (acceptedState i s).regs)[if i.isConstruct then 1 else 0]? =
      some (.out data)) :
    ∃ t, run (if i.isConstruct then 2 else 1) (acceptedState i s) = .next t ∧
      t.env.trace = s.env.trace ++ ((if i.isConstruct then [⟨.dms s.cfg.tPowerupMs, .ok⟩] else []) ++
        [⟨.w (acceptedState i s).regs.addr (data ||| bl s.cfg (acceptedState i s).regs), .ok⟩]) := by
  cases hi : i.isConstruct with
  | false =>
    rw [hi] at hdata
    obtain ⟨t, hstep, htrace⟩ := step_accepted_write i 0 (acceptedState i s) data rfl hr hdata hbus
    exact ⟨t, run_succ 0 _ t hstep, htrace⟩
  | true =>
    obtain ⟨addr, cols, rows, rfl⟩ := eq_construct_of_isConstruct i hi
    set i := Instr.construct addr cols rows
    set u := pastEvent i 1 (.dms s.cfg.tPowerupMs) (acceptedState i s)
    have hwait : step (acceptedState i s) = .next u :=
      step_event_within i 0 (acceptedState i s) _ _ rfl hr rfl hdata rfl rfl
    obtain ⟨t, hstep, htrace⟩ := step_accepted_write i 1 u data rfl hr hdata hbus
    refine ⟨t, (run_succ 1 _ u hwait).trans (run_succ 0 u t hstep), ?_⟩
    rw [htrace, ← List.append_assoc]
    rfl

/-- Settles O47: the first write of a host operation has enable low, so after a held pulse it is the falling edge; the
power-up delay of `CONSTRUCT` leaves the lines. -/
theorem heldEnableLatchesAtTheNextWrite : Obligations.HeldEnableLatchesAtTheNextWrite := by
  intro s i ⟨hidle, hr⟩ hphase hhost hbad hpos hspec hbus
  obtain ⟨data, hdata⟩ := plan_first_write i s.cfg (acceptedState i s).regs hpos
  have hlen := Nat.zero_lt_of_lt (List.getElem?_eq_some_iff.mp hdata).1
  obtain ⟨t, hrun, htrace⟩ := run_first_write i s data hr hbus hdata
  have hlow : enableLine (data ||| bl s.cfg (acceptedState i s).regs) = false := by
    rw [enableLine_or_bl hspec, enableLine_of_isHost hspec i _ _ data hhost hdata, enableHighAt_first i hhost]
  refine ⟨_, t, _, exec_of_idle i s hidle hphase hbad hlen, hrun, htrace, hlow, fun u now hheld => ⟨?_, ?_⟩⟩
  · cases i.isConstruct <;> simp [latchesFrom, edge_falling _ _ hheld hlow]
  · rw [htrace, ← List.append_assoc, linesFrom_accepted_write]

/-- Settles O48: the one write is the backlight bit alone, which has enable low and presents the nibble 0000. -/
theorem setBacklightDrivesTheLinesLow : Obligations.SetBacklightDrivesTheLinesLow := by
  intro s f ⟨hphase, hidle, hr⟩ hspec hbus
  set s1 := acceptedState (.setBacklight f) s
  set v := bl s.cfg s1.regs
  have hv : v = flagPattern f 0x08 := by
    rw [← hspec.blBit_eq]
    rfl
  have hlow : enableLine v = false := by rw [hv]; cases f <;> rfl
  have hlatch : Latch.of v = ⟨0#4, false⟩ := by rw [hv]; cases f <;> rfl
  have hevent : eventOf s1.cfg s1.regs (.out 0x00) = .w s.regs.addr v :=
    congrArg (Event.w s.regs.addr) BitVec.zero_or
  obtain ⟨herr, htrace, -⟩ := afterEvent_of_busAccepts (.w s.regs.addr v) 0 s1 hbus
  have hstep : step s1 = .next ((afterEvent (.w s.regs.addr v) s1).finish .ok s.phase) := by
    rw [step_event (.setBacklight f) 0 s1 (.out 0x00) rfl hr rfl (hevent ▸ herr), hevent,
      arrive_end _ _ _ (le_refl 1)]
    rfl
  refine ⟨s1, _, _, exec_of_idle _ s hidle (.inr hphase) rfl Nat.one_pos, run_succ 0 s1 _ hstep, rfl, htrace,
    fun u now => ⟨?_, ?_⟩⟩
  · rw [latchesFrom_accepted_write _ _ _ _ _ hlow, hlatch]
  · have hlines := linesFrom_accepted_write u s.regs.addr now v s.env.trace
    refine ((congrArg (linesFrom u s.regs.addr 0 now) htrace).trans hlines).trans ?_
    rw [hv]
    cases f <;> rfl

end Sys2Proof.Machine
end
